-- ==== Sys2Proof/Word.lean ====
section
/-! DEFINITION. The bit-vector types of CRCFRAME: the 32-bit command and read words, a byte, the
64-bit slice counter and the 4-bit read index (00_scope.md rule R6, 10_state.md rules R20 and R42). -/

namespace Sys2Proof

/-- A 32-bit word: a command word, a read word, or a 32-bit state element (R6). -/
abbrev Word := BitVec 32

/-- A byte, "an integer 0..255" (R8): the one command operand and the element of a slice. -/
abbrev Byte := BitVec 8

/-- The slice byte counter's width `CNT_W` = 64 (R6, R26). -/
abbrev Count := BitVec 64

/-- The 4-bit index of the register read port (R42, R50). -/
abbrev ReadIndex := BitVec 4

end Sys2Proof
end

