-- ==== Sys2Proof/Syntax.lean ====
section
/-! DEFINITION. The commands of CRCFRAME, one constructor per row of the opcode map
(30_encoding.md rule R73), their operand forms (R71), and the three fields of a command word (R70). -/

namespace Sys2Proof

/-- The ten commands (R73). The only operand is the immediate byte of the two B-form commands (R72). -/
inductive Instr where
  /-- NOP (40_control.md rule R92). -/
  | nop
  /-- CRC.INIT (41_crc.md rule R104). -/
  | crcInit
  /-- CRC.BYTE b (41_crc.md rule R105). -/
  | crcByte (b : Byte)
  /-- CLEAR (40_control.md rule R93). -/
  | clear
  /-- FR.PARSE (42_framer.md rule R123). -/
  | frParse
  /-- FR.COMPOSE (42_framer.md rule R124). -/
  | frCompose
  /-- FR.TYPE (42_framer.md rule R122). -/
  | frType
  /-- FR.BYTE b (42_framer.md rule R125). -/
  | frByte (b : Byte)
  /-- FR.END (42_framer.md rule R129). -/
  | frEnd
  /-- FR.ABORT (42_framer.md rule R133). -/
  | frAbort
deriving DecidableEq, Repr

/-- The two operand forms (R71): Z has no operand, B has a byte operand. -/
inductive Form where
  | zForm
  | bForm
deriving DecidableEq, Repr

/-- The operand form of a command (R71, R73). -/
def Instr.form : Instr → Form
  | .nop => .zForm
  | .crcInit => .zForm
  | .crcByte _ => .bForm
  | .clear => .zForm
  | .frParse => .zForm
  | .frCompose => .zForm
  | .frType => .zForm
  | .frByte _ => .bForm
  | .frEnd => .zForm
  | .frAbort => .zForm

/-- What the IMM8 field of a command holds: the operand, or 0x00 in a Z-form (R71). -/
def Instr.operand : Instr → Byte
  | .nop => 0
  | .crcInit => 0
  | .crcByte b => b
  | .clear => 0
  | .frParse => 0
  | .frCompose => 0
  | .frType => 0
  | .frByte b => b
  | .frEnd => 0
  | .frAbort => 0

/-- The three fields of a command word (R70). -/
@[ext] structure CommandFields where
  op : Byte
  imm8 : Byte
  rsv : BitVec 16
deriving DecidableEq, Repr

end Sys2Proof
end

