-- ==== Sys2Proof/WellFormed.lean ====
section
/-! DEFINITION. Well-formedness: the checks rules R70 and R71 of 30_encoding.md put on the fields of a
command word of a given form, and on a command as a term. -/

namespace Sys2Proof

/-- R70: "RSV: reserved; must be 0". -/
def CommandFields.rsvClear (c : CommandFields) : Bool :=
  c.rsv == 0

/-- R71: in the Z-form "IMM8 must be 0x00"; in the B-form it is the operand, any byte. -/
def CommandFields.operandAllowed (f : Form) (c : CommandFields) : Bool :=
  match f with
  | .zForm => c.imm8 == 0
  | .bForm => true

/-- The fields satisfy both checks for form `f` (R70, R71). -/
def CommandFields.wellFormedAs (f : Form) (c : CommandFields) : Bool :=
  c.rsvClear && c.operandAllowed f

/-- A command whose IMM8 field is one that its form allows (R71). The operand of a B-form is a byte by
its type, and a Z-form has none, so every term of `Instr` passes: an ill-formed command is a word that
the decoder refuses, never a term. -/
def Instr.wellFormed (i : Instr) : Bool :=
  CommandFields.wellFormedAs i.form { op := 0, imm8 := i.operand, rsv := 0 }

end Sys2Proof
end

