-- ==== Sys2Proof/Decode.lean ====
section
/-! DEFINITION. The opcode map, the decoder and the encoder (30_encoding.md rules R70 to R76).
Decoding is a pure function of the 32 bits of a word, total, and says by name why a word is illegal. -/

namespace Sys2Proof

/-- Bits 7:0 of a command word, OP (R70). -/
def opField (w : Word) : Byte := w.extractLsb' 0 8

/-- Bits 15:8 of a command word, IMM8 (R70): the operand byte "b = w[15:8]" (R72). -/
def immField (w : Word) : Byte := w.extractLsb' 8 8

/-- Bits 31:16 of a command word, RSV (R70). -/
def rsvField (w : Word) : BitVec 16 := w.extractLsb' 16 16

/-- The three fields of a command word (R70). -/
def fieldsOf (w : Word) : CommandFields :=
  { op := opField w, imm8 := immField w, rsv := rsvField w }

/-- One row of the opcode map (R73). `build` makes the command from the operand byte; a Z-form row
ignores it. -/
structure OpRow where
  mnemonic : String
  op : Byte
  form : Form
  matchBits : Word
  mask : Word
  build : Byte → Instr

/-- R73: "a word w selects the row when (w & mask) = match". -/
def OpRow.selects (r : OpRow) (w : Word) : Bool :=
  (w &&& r.mask) == r.matchBits

/-- The opcode map of rule R73, row for row. -/
def opcodeRows : List OpRow :=
  [ ⟨"NOP", 0x00, .zForm, 0x00000000, 0xFFFFFFFF, fun _ => .nop⟩,
    ⟨"CRC.INIT", 0x01, .zForm, 0x00000001, 0xFFFFFFFF, fun _ => .crcInit⟩,
    ⟨"CRC.BYTE", 0x02, .bForm, 0x00000002, 0xFFFF00FF, fun b => .crcByte b⟩,
    ⟨"CLEAR", 0x03, .zForm, 0x00000003, 0xFFFFFFFF, fun _ => .clear⟩,
    ⟨"FR.PARSE", 0x10, .zForm, 0x00000010, 0xFFFFFFFF, fun _ => .frParse⟩,
    ⟨"FR.COMPOSE", 0x11, .zForm, 0x00000011, 0xFFFFFFFF, fun _ => .frCompose⟩,
    ⟨"FR.TYPE", 0x12, .zForm, 0x00000012, 0xFFFFFFFF, fun _ => .frType⟩,
    ⟨"FR.BYTE", 0x13, .bForm, 0x00000013, 0xFFFF00FF, fun b => .frByte b⟩,
    ⟨"FR.END", 0x14, .zForm, 0x00000014, 0xFFFFFFFF, fun _ => .frEnd⟩,
    ⟨"FR.ABORT", 0x15, .zForm, 0x00000015, 0xFFFFFFFF, fun _ => .frAbort⟩ ]

/-- Why a word is illegal, by name: the three conditions of rule R74. -/
inductive DecodeError where
  /-- "its OP is not in the table". -/
  | reservedOp
  /-- "its RSV bits 31:16 are not all 0". -/
  | reservedBits
  /-- "it has a Z-form OP and its IMM8 is not 0". -/
  | zFormOperand
deriving DecidableEq, Repr

/-- Which of R74's conditions to name for a word that selects no row. Where several hold, the first in
R74's order is named; every one of them makes the word illegal alike (log entry 4). -/
def illegalReason (w : Word) : DecodeError :=
  if (opcodeRows.find? fun r => r.op == opField w).isNone then .reservedOp
  else if !(fieldsOf w).rsvClear then .reservedBits
  else .zFormOperand

/-- R74: "decode(w) is the unique row of rule R73 that w selects. When no row is selected, decode(w) is
ILLEGAL", here with the reason. -/
def decode (w : Word) : Except DecodeError Instr :=
  match opcodeRows.find? fun r => r.selects w with
  | some r => .ok (r.build (immField w))
  | none => .error (illegalReason w)

/-- The OP value of a command (R73). -/
def opOf : Instr → Byte
  | .nop => 0x00
  | .crcInit => 0x01
  | .crcByte _ => 0x02
  | .clear => 0x03
  | .frParse => 0x10
  | .frCompose => 0x11
  | .frType => 0x12
  | .frByte _ => 0x13
  | .frEnd => 0x14
  | .frAbort => 0x15

/-- R78: "The encoding of a line is (imm << 8) | OP, with imm = 0 for a Z-form". -/
def encode (i : Instr) : Word :=
  (i.operand.setWidth 32 <<< 8) ||| (opOf i).setWidth 32

/-- The command word that the host's numbering of bits gives: the low `nbits` bits of `w`, every bit
above them 0. A command is one 32-bit word (R70, R76), so a value that needs more bits is none. -/
def tableWord (nbits w : Nat) : Option Word :=
  if w % 2 ^ nbits < 2 ^ 32 then some (BitVec.ofNat 32 (w % 2 ^ nbits)) else none

/-- The command that the decoder reads from the word with bits `w` (none where it is illegal). -/
def decodeTableWord (nbits w : Nat) : Option Instr :=
  match tableWord nbits w with
  | none => none
  | some v =>
    match decode v with
    | .ok i => some i
    | .error _ => none

end Sys2Proof
end

