-- ==== Sys2Proof/Config.lean ====
section
/-! DEFINITION. What the spec leaves open for CRCFRAME. No parameter is left open (R6), so the one
free value is the state before the first reset (70_reset_and_hazards.md rule R192,
93_implementation_defined.md U1). -/

namespace Sys2Proof

/-- The pre-reset contents of state element number `k` (numbered in the order of rule R20's table,
from 0): unspecified, so a constant with no body, of which nothing can be proved (R192, U1). The low
bits that the element's width asks for are the element's. Log entry 2. -/
opaque Config.powerOnBits : Nat → BitVec 64

end Sys2Proof
end

