-- ==== Sys2Proof/Machine/State.lean ====
section
/-! DEFINITION. The state of CRCFRAME: the 13 elements of 10_state.md rule R20 under the spec's own
names, and the input pins of the coming clock cycles (20_memory.md rule R50), which are the model's
own field. Plain data throughout. -/

namespace Sys2Proof.Machine

/-- The four values of `fr_mode` (R22). All four codes of the 2-bit element are named, so the type is
the element, whole. -/
inductive Mode where
  | idle
  | parse
  | compose
  | type
deriving DecidableEq, Repr

/-- The frame error kinds that FR.END can record (60_exceptions.md rule R171), code 0 (NONE) apart. -/
inductive FrameError where
  | tooShort
  | lengthMismatch
  | invalidTypeCode
  | crcMismatch
  | invalidLength
  | dataTooLong
deriving DecidableEq, Repr

/-- The outcomes of a command word (60_exceptions.md rule R173). -/
inductive CmdOutcome where
  | accepted
  | illegal
  | rejected
deriving DecidableEq, Repr

/-- The input ports in one clock cycle (R50). `clk` is the step itself: one step is one rising edge. -/
structure PortIn where
  /-- "synchronous reset, active high". -/
  rst : Bool
  /-- "the host offers a command word this cycle". -/
  cmd_valid : Bool
  /-- "the command word". -/
  cmd_data : Word
  /-- "read index". -/
  rd_addr : ReadIndex
deriving DecidableEq, Repr

/-- The state. The first 13 fields are the whole architectural state (R20); `cycles` is the model's. -/
structure State where
  /-- The raw CRC register of the standalone CRC unit (R21). -/
  crc_state : Word
  /-- The mode of the current framer session, or of the last one (R22). -/
  fr_mode : Mode
  /-- A framer session is open (R23). -/
  fr_busy : Bool
  /-- FR.END has closed a session and its result is final (R24). -/
  fr_done : Bool
  /-- The error kind of the session, 4 bits; codes 7..15 are never written (R25, R171). -/
  fr_err : BitVec 4
  /-- The slice bytes absorbed by the session, saturating (R26). -/
  fr_count : Count
  /-- The chunk length N (R27). -/
  fr_len : Word
  /-- The 4 chunk-type bytes, byte 0 in bits 31:24 (R28). -/
  fr_type : Word
  /-- The framer's own raw CRC register (R29). -/
  fr_crc : Word
  /-- The CRC field received in a PARSE slice (R30). -/
  fr_crc_rx : Word
  /-- Set by every illegal word (R31). -/
  ill_sticky : Bool
  /-- Set by every rejected command (R32). -/
  rej_sticky : Bool
  /-- The outcome of the most recent command word, 2 bits; code 3 is never written (R33, R173). -/
  last : BitVec 2
  /-- The model's own field, no part of rule R20's state: the input pins of the coming clock cycles,
  the next cycle first, as the host drives them (R50, R59). Log entry 1. -/
  cycles : List PortIn
deriving DecidableEq, Repr

/-- The faults of the machine: none. "CRCFRAME never traps" (R170), and "every 32-bit word in every
state has exactly one next state" (R90). No constructor, so nobody raises one: safe. Log entry 5. -/
inductive Fault where
deriving DecidableEq, Repr

/-- The refusals. No meaning raises one. -/
inductive Refusal where
  /-- Raised only by an arm of `exec` whose command has no meaning yet; there is none. Safe: the run
  stops. -/
  | notModelled (mnemonic : String)
deriving DecidableEq, Repr

/-- The machine right after reset (R20's table, R190), with no further input listed. -/
def State.reset : State :=
  { crc_state := 0xFFFFFFFF
    fr_mode := .idle
    fr_busy := false
    fr_done := false
    fr_err := 0
    fr_count := 0
    fr_len := 0
    fr_type := 0
    fr_crc := 0xFFFFFFFF
    fr_crc_rx := 0
    ill_sticky := false
    rej_sticky := false
    last := 0
    cycles := [] }

end Sys2Proof.Machine
end

