-- ==== Sys2Proof/Machine/Operands.lean ====
section
/-! DEFINITION. Bytes in words: the big-endian packing of the multi-byte fields (00_scope.md rule R9,
20_memory.md rules R53 and R56) and the type bytes of `fr_type` (10_state.md rule R28). The operand
of a command is its IMM8 byte as it is, "no sign extension, scaling or shift" (R72), so it needs no
operand form of its own. -/

namespace Sys2Proof.Machine

/-- `BE32(x)`: bytes 31:24, 23:16, 15:8, 7:0 (R9). -/
def be32 (x : Word) : List Byte :=
  [x.extractLsb' 24 8, x.extractLsb' 16 8, x.extractLsb' 8 8, x.extractLsb' 0 8]

/-- `LE32(x)`: the four bytes, the least significant first (41_crc.md rule R108). -/
def le32 (x : Word) : List Byte :=
  [x.extractLsb' 0 8, x.extractLsb' 8 8, x.extractLsb' 16 8, x.extractLsb' 24 8]

/-- `((v << 8) | b) mod 2^32`: one more byte of a big-endian field (R127). -/
def shiftInByte (v : Word) (b : Byte) : Word :=
  (v <<< 8) ||| b.setWidth 32

/-- `BEval(s)`, on a 4-byte sequence the inverse of `be32` (R9). On another length, where R9 gives no value,
it is the last four bytes, or the shorter number (DESIGN CHOICE, log entry 11). -/
def beVal (s : List Byte) : Word :=
  s.foldl shiftInByte 0

/-- Type byte `j` of a type word: bits [31-8j : 24-8j] (R28). There is no byte past 3, and
the function is 0 there (DESIGN CHOICE, log entry 11). -/
def typeByte (t : Word) (j : Nat) : Byte :=
  match j with
  | 0 => t.extractLsb' 24 8
  | 1 => t.extractLsb' 16 8
  | 2 => t.extractLsb' 8 8
  | 3 => t.extractLsb' 0 8
  | _ => 0

/-- `fr_type byte j <- b`, bits [31-8j : 24-8j] (R28, R126); the other three bytes stay. Past 3,
where there is none to write, nothing changes (DESIGN CHOICE, log entry 11). -/
def setTypeByte (t : Word) (j : Nat) (b : Byte) : Word :=
  match j with
  | 0 => (t &&& 0x00FFFFFF) ||| (b.setWidth 32 <<< 24)
  | 1 => (t &&& 0xFF00FFFF) ||| (b.setWidth 32 <<< 16)
  | 2 => (t &&& 0xFFFF00FF) ||| (b.setWidth 32 <<< 8)
  | 3 => (t &&& 0xFFFFFF00) ||| b.setWidth 32
  | _ => t

/-- `min(i + 1, 2^64 - 1)`: the saturating slice counter (R26, R125). -/
def incCount (c : Count) : Count :=
  BitVec.ofNat 64 (min (c.toNat + 1) (2 ^ 64 - 1))

end Sys2Proof.Machine
end

