-- ==== Sys2Proof/Machine/CrcFunction.lean ====
section
/-! DEFINITION. The CRC-32/ISO-HDLC function (41_crc.md rules R100 to R102): the byte update, its table
form, and the CRC of a byte sequence. -/

namespace Sys2Proof.Machine

/-- The reflected polynomial (R100). -/
def crcPoly : Word := 0xEDB88320

/-- The initial register value (R100). -/
def crcInitial : Word := 0xFFFFFFFF

/-- The final exclusive-or (R100). -/
def crcFinalXor : Word := 0xFFFFFFFF

/-- One pass of the loop of rule R101. -/
def crcBit (c : Word) : Word :=
  if c.getLsbD 0 then (c >>> 1) ^^^ crcPoly else c >>> 1

/-- `n` passes of the loop of rule R101. -/
def crcBits : Nat → Word → Word
  | 0, c => c
  | n + 1, c => crcBits n (crcBit c)

/-- `upd(c, b)`, the byte update, bit-serial and reflected (R101; bit order R57). -/
def upd (c : Word) (b : Byte) : Word :=
  crcBits 8 (c ^^^ b.setWidth 32)

/-- The table entry `T[n] = upd(0, n)` (R101). -/
def crcTable (n : Byte) : Word :=
  upd 0 n

/-- The table form of the byte update, `(c >> 8) ^ T[(c ^ b) & 0xFF]` (R101). -/
def updByTable (c : Word) (b : Byte) : Word :=
  (c >>> 8) ^^^ crcTable (c.setWidth 8 ^^^ b)

/-- `foldl upd c s`: the raw register after the bytes of `s`, from `c` (R102, R103). -/
def rawFrom (c : Word) (s : List Byte) : Word :=
  s.foldl upd c

/-- `raw(s) = foldl upd 0xFFFFFFFF s` (R102). -/
def raw (s : List Byte) : Word :=
  rawFrom crcInitial s

/-- `crc32(s) = raw(s) ^ 0xFFFFFFFF` (R102). -/
def crc32 (s : List Byte) : Word :=
  raw s ^^^ crcFinalXor

end Sys2Proof.Machine
end

