-- ==== Sys2Proof/Machine/Flags.lean ====
section
/-! DEFINITION. The codes of the coded elements, the derived values of 10_state.md rules R36 to R41, and
the register read port (R42 to R45): every flag the spec gives the machine. -/

namespace Sys2Proof.Machine

/-- The encoding of `fr_mode`: 0 IDLE, 1 PARSE, 2 COMPOSE, 3 TYPE (R22). -/
def Mode.code : Mode → BitVec 2
  | .idle => 0
  | .parse => 1
  | .compose => 2
  | .type => 3

/-- Code 0, NONE, of `fr_err` (R171). -/
def errNone : BitVec 4 := 0

/-- The codes of the frame errors (R171). -/
def FrameError.code : FrameError → BitVec 4
  | .tooShort => 1
  | .lengthMismatch => 2
  | .invalidTypeCode => 3
  | .crcMismatch => 4
  | .invalidLength => 5
  | .dataTooLong => 6

/-- The codes of `last`: 0 ACCEPTED, 1 ILLEGAL, 2 REJECTED (R33, R173). -/
def CmdOutcome.code : CmdOutcome → BitVec 2
  | .accepted => 0
  | .illegal => 1
  | .rejected => 2

/-- `isUpper(b)`: 0x41 <= b <= 0x5A (R37). -/
def isUpper (b : Byte) : Bool :=
  decide (0x41 ≤ b.toNat) && decide (b.toNat ≤ 0x5A)

/-- `isLower(b)`: 0x61 <= b <= 0x7A (R37). -/
def isLower (b : Byte) : Bool :=
  decide (0x61 ≤ b.toNat) && decide (b.toNat ≤ 0x7A)

/-- `isLetter(b) = isUpper(b) or isLower(b)` (R37). -/
def isLetter (b : Byte) : Bool :=
  isUpper b || isLower b

/-- `type_rcvd`, 0..4: how many type bytes the session has received (R36). The difference is a Nat
difference, which is `max(0, fr_count - 4)`. -/
def typeRcvd (s : State) : Nat :=
  match s.fr_mode with
  | .idle => 0
  | .parse => min 4 (s.fr_count.toNat - 4)
  | .compose => min 4 s.fr_count.toNat
  | .type => min 4 s.fr_count.toNat

/-- `letters_ok`: every received type byte is a letter (R38). -/
def lettersOk (s : State) : Bool :=
  (List.range (typeRcvd s)).all fun j => isLetter (typeByte s.fr_type j)

/-- `critical`: "byte 0 is uppercase" (R39). -/
def critical (s : State) : Bool := isUpper (typeByte s.fr_type 0)

/-- `public`: "byte 1 is uppercase" (R39). -/
def publicFlag (s : State) : Bool := isUpper (typeByte s.fr_type 1)

/-- `reserved_valid`: "byte 2 is uppercase" (R39). -/
def reservedValid (s : State) : Bool := isUpper (typeByte s.fr_type 2)

/-- `safe_to_copy`: "byte 3 is lowercase" (R39). -/
def safeToCopy (s : State) : Bool := isLower (typeByte s.fr_type 3)

/-- `type_complete = (type_rcvd = 4)` (R40). -/
def typeComplete (s : State) : Bool := typeRcvd s == 4

/-- `is_valid = type_complete and letters_ok and reserved_valid` (R40). -/
def isValid (s : State) : Bool :=
  typeComplete s && lettersOk s && reservedValid s

/-- `crc_value = crc_state ^ 0xFFFFFFFF` (R41). -/
def crcValue (s : State) : Word := s.crc_state ^^^ crcFinalXor

/-- `fr_crc_calc = fr_crc ^ 0xFFFFFFFF` (R41). -/
def frCrcCalc (s : State) : Word := s.fr_crc ^^^ crcFinalXor

/-- STATUS.OK: `fr_done = 1 and fr_err = 0` (R43). -/
def statusOk (s : State) : Bool := s.fr_done && s.fr_err == 0

/-- A field of a read word, its lowest bit at bit `n`. -/
def fieldAt {k : Nat} (n : Nat) (v : BitVec k) : Word :=
  v.setWidth 32 <<< n

/-- A one-bit field of a read word, at bit `n`. -/
def bitAt (n : Nat) (b : Bool) : Word :=
  fieldAt n (BitVec.ofBool b)

/-- STATUS (R43). -/
def statusWord (s : State) : Word :=
  fieldAt 0 s.fr_mode.code ||| bitAt 2 s.fr_busy ||| bitAt 3 s.fr_done ||| bitAt 4 (statusOk s)
    ||| fieldAt 8 s.fr_err ||| bitAt 16 s.ill_sticky ||| bitAt 17 s.rej_sticky ||| fieldAt 18 s.last

/-- FR_FLAGS (R44). -/
def flagsWord (s : State) : Word :=
  bitAt 0 (lettersOk s) ||| bitAt 1 (critical s) ||| bitAt 2 (publicFlag s)
    ||| bitAt 3 (reservedValid s) ||| bitAt 4 (safeToCopy s) ||| bitAt 5 (isValid s)
    ||| bitAt 6 (typeComplete s) ||| fieldAt 8 (BitVec.ofNat 3 (typeRcvd s))

/-- `read(idx)`, the register map (R42); the reserved indices 0xA..0xF read 0 (R45). -/
def readPort (s : State) (idx : ReadIndex) : Word :=
  match idx.toNat with
  | 0x0 => statusWord s
  | 0x1 => s.crc_state
  | 0x2 => crcValue s
  | 0x3 => s.fr_len
  | 0x4 => s.fr_type
  | 0x5 => flagsWord s
  | 0x6 => s.fr_crc_rx
  | 0x7 => frCrcCalc s
  | 0x8 => s.fr_count.extractLsb' 0 32
  | 0x9 => s.fr_count.extractLsb' 32 32
  | _ => 0

end Sys2Proof.Machine
end

