-- ==== Sys2Proof/Machine/Ops.lean ====
section
/-! DEFINITION. The shared operations: how a command ends (40_control.md rules R90 and R91), what a
session start and a return to the framer's reset values write (42_framer.md rules R121 and R133), and
the ports (20_memory.md rule R50). CRCFRAME takes no exception and returns from none (60_exceptions.md
rules R170, R176 and R177): `reject` and `illegalWord` are all that an error does. -/

namespace Sys2Proof.Machine

/-- How a command ends: with a next state, on this machine always (R90). -/
abbrev StepResult := Host.Outcome State Fault Refusal

/-- `accept`: `last <- 0` (R90), over the command's other writes, which `s` holds already. -/
def accept (s : State) : StepResult :=
  .next { s with last := CmdOutcome.accepted.code }

/-- `reject`: `last <- 2` and `rej_sticky <- 1`, "the only writes" (R90). -/
def reject (s : State) : StepResult :=
  .next { s with rej_sticky := true, last := CmdOutcome.rejected.code }

/-- What an illegal word does: `ill_sticky <- 1; last <- 1`, and nothing else (R91). -/
def illegalWord (s : State) : StepResult :=
  .next { s with ill_sticky := true, last := CmdOutcome.illegal.code }

/-- The five data elements of the framer at their reset values: the second line of `start(m)` (R121)
and of FR.ABORT (R133). -/
def clearFramerData (s : State) : State :=
  { s with fr_count := 0, fr_len := 0, fr_type := 0, fr_crc := crcInitial, fr_crc_rx := 0 }

/-- `start(m)`, the common effect of the three session-start commands (R121). -/
def startSession (m : Mode) (s : State) : StepResult :=
  accept { clearFramerData s with fr_mode := m, fr_busy := true, fr_done := false, fr_err := errNone }

/-- The pins of a cycle in which the host does nothing: `rst` low and no word offered. Log entry 1. -/
def PortIn.quiet : PortIn :=
  { rst := false, cmd_valid := false, cmd_data := 0, rd_addr := 0 }

/-- The pins of a cycle in which the host offers the command word `w` (R50). -/
def PortIn.offer (w : Word) : PortIn :=
  { PortIn.quiet with cmd_valid := true, cmd_data := w }

/-- The pins of a cycle in which the host asserts `rst` (R190). -/
def PortIn.resetPulse : PortIn :=
  { PortIn.quiet with rst := true }

/-- The input pins in the current cycle; where the list is at its end, the quiet ones (log entry 1). -/
def State.pins (s : State) : PortIn :=
  s.cycles.headD PortIn.quiet

/-- The state with the current cycle's pins consumed. -/
def State.popPins (s : State) : State :=
  { s with cycles := s.cycles.tail }

/-- `cmd_ready`, "equals `not rst`" (R50). -/
def State.cmdReady (s : State) : Bool :=
  !s.pins.rst

/-- A word is accepted "exactly when `cmd_valid = 1` and `cmd_ready = 1`" (R50). -/
def State.accepts (s : State) : Bool :=
  s.pins.cmd_valid && s.cmdReady

/-- `rd_data`: "`read(rd_addr)` of the current state, combinational" (R50, R194). -/
def State.rdData (s : State) : Word :=
  readPort s s.pins.rd_addr

/-- A rising edge with `rst = 1`: every element takes its reset value (R190). The host's coming cycles
are no state of the block and stay. -/
def resetEdge (s : State) : State :=
  { State.reset with cycles := s.cycles }

/-- The machine before its first reset: every element unspecified (R192, U1), a free value each. -/
def State.powerOn (cycles : List PortIn) : State :=
  { crc_state := (Config.powerOnBits 0).setWidth 32
    fr_mode :=
      if (Config.powerOnBits 1).getLsbD 1 then
        if (Config.powerOnBits 1).getLsbD 0 then .type else .compose
      else if (Config.powerOnBits 1).getLsbD 0 then .parse else .idle
    fr_busy := (Config.powerOnBits 2).getLsbD 0
    fr_done := (Config.powerOnBits 3).getLsbD 0
    fr_err := (Config.powerOnBits 4).setWidth 4
    fr_count := Config.powerOnBits 5
    fr_len := (Config.powerOnBits 6).setWidth 32
    fr_type := (Config.powerOnBits 7).setWidth 32
    fr_crc := (Config.powerOnBits 8).setWidth 32
    fr_crc_rx := (Config.powerOnBits 9).setWidth 32
    ill_sticky := (Config.powerOnBits 10).getLsbD 0
    rej_sticky := (Config.powerOnBits 11).getLsbD 0
    last := (Config.powerOnBits 12).setWidth 2
    cycles := cycles }

end Sys2Proof.Machine
end

