-- ==== Sys2Proof/Machine/Control.lean ====
section
/-! DEFINITION. The control commands NOP and CLEAR (40_control.md rules R92 and R93). -/

namespace Sys2Proof.Machine

/-- NOP: "`accept`. The only write is `last <- 0`" (R92). -/
def execNop (s : State) : StepResult :=
  accept s

/-- CLEAR: `ill_sticky <- 0; rej_sticky <- 0; accept` (R93). -/
def execClear (s : State) : StepResult :=
  accept { s with ill_sticky := false, rej_sticky := false }

end Sys2Proof.Machine
end

