-- ==== Sys2Proof/Machine/Crc.lean ====
section
/-! DEFINITION. The commands of the standalone CRC unit (41_crc.md rules R104 and R105). -/

namespace Sys2Proof.Machine

/-- CRC.INIT: `crc_state <- 0xFFFFFFFF; accept` (R104). -/
def execCrcInit (s : State) : StepResult :=
  accept { s with crc_state := crcInitial }

/-- CRC.BYTE b: `crc_state <- upd(crc_state, b); accept` (R105). -/
def execCrcByte (b : Byte) (s : State) : StepResult :=
  accept { s with crc_state := upd s.crc_state b }

end Sys2Proof.Machine
end

