-- ==== Sys2Proof/Machine/Framer.lean ====
section
/-! DEFINITION. The PNG chunk framer: session starts, absorbing a slice byte, resolving a session and
abandoning one (42_framer.md rules R121 to R133). -/

namespace Sys2Proof.Machine

/-- FR.PARSE: `start(PARSE)` (R123). -/
def execFrParse (s : State) : StepResult :=
  startSession .parse s

/-- FR.COMPOSE: `start(COMPOSE)` (R124). -/
def execFrCompose (s : State) : StepResult :=
  startSession .compose s

/-- FR.TYPE: `start(TYPE)` (R122). -/
def execFrType (s : State) : StepResult :=
  startSession .type s

/-- `absorbT(i, b)`, a TYPE-session byte (R126). -/
def absorbT (i : Nat) (b : Byte) (s : State) : State :=
  if i < 4 then { s with fr_type := setTypeByte s.fr_type i b } else s

/-- `absorbP(i, b)`, a PARSE-session byte (R127): length, type, data, CRC, then excess bytes. The
comparisons are on unbounded naturals (R8). -/
def absorbP (i : Nat) (b : Byte) (s : State) : State :=
  if i < 4 then { s with fr_len := shiftInByte s.fr_len b }
  else if i < 8 then
    { s with fr_type := setTypeByte s.fr_type (i - 4) b, fr_crc := upd s.fr_crc b }
  else if i < 8 + s.fr_len.toNat then { s with fr_crc := upd s.fr_crc b }
  else if i < 12 + s.fr_len.toNat then { s with fr_crc_rx := shiftInByte s.fr_crc_rx b }
  else s

/-- `absorbC(i, b)`, a COMPOSE-session byte (R128): the type bytes, then data bytes. -/
def absorbC (i : Nat) (b : Byte) (s : State) : State :=
  if i < 4 then { s with fr_type := setTypeByte s.fr_type i b, fr_crc := upd s.fr_crc b }
  else { s with fr_crc := upd s.fr_crc b, fr_len := s.fr_len + 1 }

/-- The mode's treatment of slice byte `i` (R125). The IDLE case is "not reachable after reset" and
writes nothing. -/
def absorb (i : Nat) (b : Byte) (s : State) : State :=
  match s.fr_mode with
  | .idle => s
  | .parse => absorbP i b s
  | .compose => absorbC i b s
  | .type => absorbT i b s

/-- FR.BYTE b: rejected with no session open, else the byte is absorbed and counted (R125). -/
def execFrByte (b : Byte) (s : State) : StepResult :=
  if s.fr_busy then accept { absorb s.fr_count.toNat b s with fr_count := incCount s.fr_count }
  else reject s

/-- `resolveT`, the result of a TYPE session (R130). -/
def resolveT (s : State) : BitVec 4 :=
  if s.fr_count.toNat ≠ 4 then FrameError.invalidLength.code
  else if !lettersOk s then FrameError.invalidTypeCode.code
  else errNone

/-- `resolveP`, the result of a PARSE session, the checks in the document's step order (R131). `12 + L`
is computed without wrap-around (R8). -/
def resolveP (s : State) : BitVec 4 :=
  if s.fr_count.toNat < 12 then FrameError.tooShort.code
  else if s.fr_count.toNat ≠ 12 + s.fr_len.toNat then FrameError.lengthMismatch.code
  else if !lettersOk s then FrameError.invalidTypeCode.code
  else if frCrcCalc s ≠ s.fr_crc_rx then FrameError.crcMismatch.code
  else errNone

/-- `resolveC`, the result of a COMPOSE session (R132). -/
def resolveC (s : State) : BitVec 4 :=
  if s.fr_count.toNat < 4 then FrameError.invalidLength.code
  else if !lettersOk s then FrameError.invalidTypeCode.code
  else if s.fr_count.toNat - 4 > 2 ^ 32 - 1 then FrameError.dataTooLong.code
  else errNone

/-- The result code of the session, by its mode (R129). The IDLE case is "not reachable after reset". -/
def resolve (s : State) : BitVec 4 :=
  match s.fr_mode with
  | .idle => errNone
  | .parse => resolveP s
  | .compose => resolveC s
  | .type => resolveT s

/-- FR.END: rejected with no session open, else `fr_err <- e; fr_busy <- 0; fr_done <- 1` (R129). -/
def execFrEnd (s : State) : StepResult :=
  if s.fr_busy then accept { s with fr_err := resolve s, fr_busy := false, fr_done := true }
  else reject s

/-- FR.ABORT: every framer element takes its reset value (R133). -/
def execFrAbort (s : State) : StepResult :=
  accept
    { clearFramerData s with fr_mode := .idle, fr_busy := false, fr_done := false, fr_err := errNone }

end Sys2Proof.Machine
end

