-- ==== Sys2Proof/Machine/Dispatch.lean ====
section
/-! DEFINITION. The one dispatch from a command to its meaning: "execute row r on s" (40_control.md
rule R90), one arm per row of the opcode map. -/

namespace Sys2Proof.Machine

/-- The effect of a legal command word (R90). -/
def exec (i : Instr) (s : State) : Host.Outcome State Fault Refusal :=
  match i with
  | .nop => Sys2Proof.Machine.execNop s
  | .crcInit => Sys2Proof.Machine.execCrcInit s
  | .crcByte b => Sys2Proof.Machine.execCrcByte b s
  | .clear => Sys2Proof.Machine.execClear s
  | .frParse => Sys2Proof.Machine.execFrParse s
  | .frCompose => Sys2Proof.Machine.execFrCompose s
  | .frType => Sys2Proof.Machine.execFrType s
  | .frByte b => Sys2Proof.Machine.execFrByte b s
  | .frEnd => Sys2Proof.Machine.execFrEnd s
  | .frAbort => Sys2Proof.Machine.execFrAbort s

end Sys2Proof.Machine
end

