-- ==== Sys2Proof/Machine/CommandStep.lean ====
section
/-! DEFINITION. The command step on one accepted word (40_control.md rule R90), and one rising clock
edge with the pins of the current cycle (20_memory.md rule R50, 70_reset_and_hazards.md rules R190
and R194). -/

namespace Sys2Proof.Machine

/-- `step(s, w)` of rule R90: decode, then the illegal word's effect or the row's. -/
def stepWord (w : Word) (s : State) : StepResult :=
  match decode w with
  | .error _ => illegalWord s
  | .ok i => exec i s

/-- One rising edge of `clk`: reset wins; else an offered word is accepted and executed whole; else
nothing changes (R50, R190, R194). -/
def clockEdge (s : State) : StepResult :=
  if s.pins.rst then .next (resetEdge s.popPins)
  else if s.accepts then stepWord s.pins.cmd_data s.popPins
  else .next s.popPins

end Sys2Proof.Machine
end

