-- ==== Sys2Proof/Machine/Step.lean ====
section
/-! DEFINITION. The step of the machine, one clock cycle, and how the host's test places a command
where the next step takes it. -/

namespace Sys2Proof.Machine

/-- One step: one rising edge of `clk` (R194). -/
def step (s : State) : Host.Outcome State Fault Refusal :=
  clockEdge s

/-- `s` with the command word offered on the command port in the very next cycle, the cycles listed
already coming after it. The block fetches nothing (R63): the port is where a step takes its command
from. A value that is no 32-bit word is offered as its low 32 bits. Log entry 3. -/
def State.withFetchWord (s : State) (nbits w : Nat) : State :=
  { s with cycles := PortIn.offer (BitVec.ofNat 32 (w % 2 ^ nbits)) :: s.cycles }

end Sys2Proof.Machine
end

