-- ==== Sys2Proof/Machine/Assembler.lean ====
section
/-! DEFINITION. The assembler's text and the pseudo-instructions (30_encoding.md rules R78 and R79): a
line of characters to the command words it emits. Text is a list of characters throughout. -/

namespace Sys2Proof.Machine

/-- `CRC.BYTES s`: one CRC.BYTE for each byte, in order (R79). -/
def crcBytes (s : List Byte) : List Instr := s.map .crcByte

/-- `FR.BYTES s`: one FR.BYTE for each byte, in order (R79). -/
def frBytes (s : List Byte) : List Instr := s.map .frByte

/-- `CRC.WORD32 v`: the four bytes of `v`, bits 31:24 first (R79). -/
def crcWord32 (v : Word) : List Instr := crcBytes (be32 v)

/-- `FR.WORD32 v`: the four bytes of `v`, bits 31:24 first (R79). -/
def frWord32 (v : Word) : List Instr := frBytes (be32 v)

/-- The blanks that separate and surround the parts of a line (log entry 6). -/
def isBlank (c : Char) : Bool := c == ' ' || c == '\t'

/-- A part of a line without the blanks around it. -/
def trimBlanks (cs : List Char) : List Char :=
  ((cs.dropWhile isBlank).reverse.dropWhile isBlank).reverse

/-- "A `;` starts a comment that runs to the end of the line" (R78). A `;` inside a literal belongs to it.
A character literal is three characters, a quote, any character, a quote, so that it may hold a quote of
either kind or a `;` and ends at its third character; a string literal ends at its next double quote. R78
and R79 leave both open: DESIGN CHOICE, log entry 6. The flag says that a string literal is open. -/
def dropComment : Bool → List Char → List Char
  | _, [] => []
  | true, c :: cs => c :: dropComment (c != '"') cs
  | false, '\'' :: c :: '\'' :: cs => '\'' :: c :: '\'' :: dropComment false cs
  | false, c :: cs => if c == ';' then [] else c :: dropComment (c == '"') cs

/-- The value of a digit in a base of at most 16, letters of either case (log entry 6). -/
def digitValue (base : Nat) (c : Char) : Option Nat :=
  let n := c.toNat
  let v :=
    if 0x30 ≤ n ∧ n ≤ 0x39 then n - 0x30
    else if 0x41 ≤ n ∧ n ≤ 0x46 then n - 0x37
    else if 0x61 ≤ n ∧ n ≤ 0x66 then n - 0x57
    else base
  if v < base then some v else none

/-- The digits of a number from the most significant on, after the value read so far. -/
def readDigits (base : Nat) : Nat → List Char → Option Nat
  | acc, [] => some acc
  | acc, c :: cs =>
    match digitValue base c with
    | none => none
    | some v => readDigits base (acc * base + v) cs

/-- A number: decimal digits, or hexadecimal digits after `0x`; at least one digit (R78). -/
def readNumber : List Char → Option Nat
  | [] => none
  | '0' :: 'x' :: [] => none
  | '0' :: 'x' :: cs => readDigits 16 0 cs
  | cs => readDigits 10 0 cs

/-- A number that fits in `w` bits. -/
def readBits (w : Nat) (cs : List Char) : Option (BitVec w) :=
  match readNumber cs with
  | none => none
  | some n => if n < 2 ^ w then some (BitVec.ofNat w n) else none

/-- The byte of a character: "the ASCII code of c" (R78, R79); a character outside ASCII has none. -/
def asciiByte (c : Char) : Option Byte :=
  if c.toNat < 128 then some (BitVec.ofNat 8 c.toNat) else none

/-- `imm`: decimal 0..255, hexadecimal, or a character literal (R78). The literal's character may be the
quote itself (DESIGN CHOICE, log entry 6). -/
def readImm : List Char → Option Byte
  | ['\'', c, '\''] => asciiByte c
  | cs => readBits 8 cs

/-- All values of a list, or none where one is missing. -/
def allSome {α : Type} : List (Option α) → Option (List α)
  | [] => some []
  | none :: _ => none
  | some a :: xs =>
    match allSome xs with
    | none => none
    | some as => some (a :: as)

/-- The characters of a string literal up to its closing quote, which ends the operand (R79). -/
def readString : List Char → Option (List Byte)
  | [] => none
  | '"' :: [] => some []
  | '"' :: _ => none
  | c :: cs =>
    match asciiByte c, readString cs with
    | some b, some bs => some (b :: bs)
    | _, _ => none

/-- The parts of a list between commas. -/
def splitCommas : List Char → List (List Char)
  | [] => [[]]
  | c :: cs =>
    if c == ',' then [] :: splitCommas cs
    else
      match splitCommas cs with
      | [] => [[c]]
      | p :: ps => (c :: p) :: ps

/-- The opening brace of a byte list. -/
def openBrace : Char := Char.ofNat 0x7B

/-- The closing brace of a byte list. -/
def closeBrace : Char := Char.ofNat 0x7D

/-- The inside of a hexadecimal byte list, its closing brace last (R79); an empty list expands to
nothing, as an empty string does (log entry 6). -/
def readByteList (cs : List Char) : Option (List Byte) :=
  match cs.reverse with
  | [] => none
  | c :: inner =>
    if c == closeBrace then
      if (trimBlanks inner.reverse).isEmpty then some []
      else allSome ((splitCommas inner.reverse).map fun p => readBits 8 (trimBlanks p))
    else none

/-- The operand of `CRC.BYTES` and `FR.BYTES`: a string literal or a hexadecimal byte list (R79). -/
def readBytes : List Char → Option (List Byte)
  | [] => none
  | c :: cs =>
    if c == '"' then readString cs
    else if c == openBrace then readByteList cs
    else none

/-- A line whose first word is a mnemonic of the opcode map: a Z-form with no operand or a B-form with
one (R78). -/
def assembleRow (r : OpRow) (arg : List Char) : Option (List Word) :=
  match r.form with
  | .zForm => if arg.isEmpty then some [encode (r.build 0)] else none
  | .bForm =>
    match readImm arg with
    | none => none
    | some b => some [encode (r.build b)]

/-- The words of an optional expansion. -/
def expand {α : Type} (f : α → List Instr) : Option α → Option (List Word)
  | none => none
  | some a => some ((f a).map encode)

/-- A line split in its first word and its operand, comment and blanks gone (R78, R79). -/
def assembleParts (name arg : List Char) : Option (List Word) :=
  match opcodeRows.find? fun r => r.mnemonic.toList == name with
  | some r => assembleRow r arg
  | none =>
    if name == ".word".toList then
      match readBits 32 arg with
      | none => none
      | some v => some [v]
    else if name == "CRC.BYTES".toList then expand crcBytes (readBytes arg)
    else if name == "FR.BYTES".toList then expand frBytes (readBytes arg)
    else if name == "CRC.WORD32".toList then expand crcWord32 (readBits 32 arg)
    else if name == "FR.WORD32".toList then expand frWord32 (readBits 32 arg)
    else none

/-- One line of assembler text to the words it emits; `none` where it is no line of R78 or R79. A line
that is blank, or holds only a comment, emits nothing (log entry 6). -/
def assembleLine (line : List Char) : Option (List Word) :=
  let cs := trimBlanks (dropComment false line)
  if cs.isEmpty then some []
  else
    assembleParts (cs.takeWhile fun c => !isBlank c)
      (trimBlanks (cs.dropWhile fun c => !isBlank c))

end Sys2Proof.Machine
end

