-- ==== Sys2Proof/Machine/Document.lean ====
section
/-! DEFINITION. The byte format of a chunk (20_memory.md rules R54 and R55) and the operations of the
source document that the framer carries out, on whole byte slices, as 42_framer.md rules R130 to R132
quote them: the reference the block's sessions are held against. -/

namespace Sys2Proof.Machine

/-- `chunk_bytes(T, D) = BE32(N) ++ T ++ D ++ BE32(crc32(T ++ D))`, which R54 gives for a `T` of 4 bytes
and N <= 2^32-1. Outside that range the function is the model's: the length field is then N mod 2^32, and
`T` stands as it is. DESIGN CHOICE, log entry 11; no chunk of the spec is meant there. -/
def chunkBytes (T D : List Byte) : List Byte :=
  be32 (BitVec.ofNat 32 D.length) ++ T ++ D ++ be32 (crc32 (T ++ D))

/-- The 8-byte signature of a PNG stream (R55). -/
def pngSignature : List Byte := [137, 80, 78, 71, 13, 10, 26, 10]

/-- A chunk: `length`, `chunk_type`, `data` and `crc` (R2, R54). -/
structure Chunk where
  length : Word
  chunkType : List Byte
  data : List Byte
  crc : Word
deriving DecidableEq, Repr

/-- `to_bytes`: "concatenation of big-endian `length`, type bytes, `data`, big-endian `crc`" (R135). -/
def Chunk.toBytes (c : Chunk) : List Byte :=
  be32 c.length ++ c.chunkType ++ c.data ++ be32 c.crc

/-- `ChunkType::parse(bytes)`: "fails with `InvalidTypeCode` if any byte is not an ASCII letter;
otherwise returns the type unchanged" (R130). -/
def docTypeParse (T : List Byte) : Except FrameError (List Byte) :=
  if T.all isLetter then .ok T else .error .invalidTypeCode

/-- `ChunkType::parse_str(s)`: "fails with `InvalidLength` if `s` is not exactly 4 characters
(measured in bytes ...); otherwise delegates to `parse`" (R130). -/
def docTypeParseStr (s : List Byte) : Except FrameError (List Byte) :=
  if s.length = 4 then docTypeParse s else .error .invalidLength

/-- `Chunk::new(chunk_type, data)`: "computes `length = len(data)` and
`crc = CRC32(type_bytes ++ data)`; always succeeds" (R132), on a validated type. With more than 2^32-1 data
bytes, where the document does not say what `length` is, it is N mod 2^32 here (DESIGN CHOICE, log entry
11); `docCompose` does not call it there. -/
def docChunkNew (T D : List Byte) : Chunk :=
  { length := BitVec.ofNat 32 D.length, chunkType := T, data := D, crc := crc32 (T ++ D) }

/-- What COMPOSE does with raw type and data bytes: the checks of `ChunkType` first, then the limit of
the 4-byte length field, then `Chunk::new` (R132, D11). The document's `new` makes none of these checks:
that they stand here is log entry 10's choice. -/
def docCompose (S : List Byte) : Except FrameError Chunk :=
  if S.length < 4 then .error .invalidLength
  else if !(S.take 4).all isLetter then .error .invalidTypeCode
  else if (S.drop 4).length > 2 ^ 32 - 1 then .error .dataTooLong
  else .ok (docChunkNew (S.take 4) (S.drop 4))

/-- `Chunk::parse(bytes)`, its steps in order (R131, R127): too short; total length; type code; CRC of
`type_bytes ++ data` against the trailing field; the assembled chunk. -/
def docChunkParse (S : List Byte) : Except FrameError Chunk :=
  let len := beVal (S.take 4)
  let T := (S.drop 4).take 4
  let D := (S.drop 8).take len.toNat
  let crc := beVal ((S.drop (8 + len.toNat)).take 4)
  if S.length < 12 then .error .tooShort
  else if S.length ≠ 8 + len.toNat + 4 then .error .lengthMismatch
  else if !T.all isLetter then .error .invalidTypeCode
  else if crc32 (T ++ D) ≠ crc then .error .crcMismatch
  else .ok { length := len, chunkType := T, data := D, crc := crc }

/-- The `fr_err` code of a result: NONE for success, else its kind's (R171). -/
def docErrCode {α : Type} : Except FrameError α → BitVec 4
  | .ok _ => errNone
  | .error e => e.code

end Sys2Proof.Machine
end

