-- ==== Sys2Proof/Machine/HostProcedures.lean ====
section
/-! DEFINITION. What a host does with the block: command sequences in acceptance order (20_memory.md
rule R59), the three kinds of session (42_framer.md rule R120), and the informative host procedures
of rules R136 to R139, which read their results from the read port alone. -/

namespace Sys2Proof.Machine

/-- The commands of a list, executed in order, one at a time (R59). -/
def execAll : List Instr → State → StepResult
  | [], s => .next s
  | i :: is, s =>
    match exec i s with
    | .next t => execAll is t
    | .fault r => .fault r
    | .refused r => .refused r

/-- The command words of a list, legal or not, executed in order (R59, R90). -/
def execWords : List Word → State → StepResult
  | [], s => .next s
  | w :: ws, s =>
    match stepWord w s with
    | .next t => execWords ws t
    | .fault r => .fault r
    | .refused r => .refused r

/-- One session on the slice `S`: its start, one FR.BYTE for each byte, FR.END (R120, R193). -/
def session (start : Instr) (S : List Byte) : List Instr :=
  start :: (S.map .frByte ++ [.frEnd])

/-- A TYPE session (R122, R136). -/
def typeSession (S : List Byte) : List Instr := session .frType S

/-- A PARSE session (R123, R137). -/
def parseSession (S : List Byte) : List Instr := session .frParse S

/-- A COMPOSE session (R124, R138). -/
def composeSession (S : List Byte) : List Instr := session .frCompose S

/-- Field bits of the STATUS word a host reads: OK (bit 4) and ERR (bits 11:8) (R43). -/
def hostOk (t : State) : Bool := (readPort t 0x0).getLsbD 4

/-- STATUS.ERR, bits 11:8 (R43). -/
def hostErr (t : State) : BitVec 4 := (readPort t 0x0).extractLsb' 8 4

/-- What a host makes of a finished session: `result` where OK = 1, else the error code; `none` where
the commands did not run to their end, which does not happen (R90). -/
def hostResult {α : Type} (result : State → α) : StepResult → Option (Except (BitVec 4) α)
  | .next t => some (if hostOk t then .ok (result t) else .error (hostErr t))
  | .fault _ => none
  | .refused _ => none

/-- R136, `ChunkType::parse_str`: the 4 bytes of FR_TYPE, and the accessors in FR_FLAGS. -/
def hostParseStr (S : List Byte) (s : State) : Option (Except (BitVec 4) (List Byte × Word)) :=
  hostResult (fun t => (be32 (readPort t 0x4), readPort t 0x5)) (execAll (typeSession S) s)

/-- The chunk a host reads after a PARSE session on `S` that ended OK: FR_LEN, FR_TYPE and FR_CRC_RX,
and its own copy of the data bytes 8 .. 7+FR_LEN (R137, R64). -/
def hostChunk (S : List Byte) (t : State) : Chunk :=
  { length := readPort t 0x3
    chunkType := be32 (readPort t 0x4)
    data := (S.drop 8).take (readPort t 0x3).toNat
    crc := readPort t 0x6 }

/-- R137, `Chunk::parse`. -/
def hostChunkParse (S : List Byte) (s : State) : Option (Except (BitVec 4) Chunk) :=
  hostResult (hostChunk S) (execAll (parseSession S) s)

/-- R138, `Chunk::new` and `to_bytes`: BE32(FR_LEN) ++ type ++ data ++ BE32(FR_CRC_CALC). -/
def hostChunkNew (T D : List Byte) (s : State) : Option (Except (BitVec 4) (List Byte)) :=
  hostResult (fun t => be32 (readPort t 0x3) ++ T ++ D ++ be32 (readPort t 0x7))
    (execAll (composeSession (T ++ D)) s)

/-- The extent of the next chunk in the rest of a buffer (R139 step 2). -/
def chunkExtent (rest : List Byte) : Nat :=
  if rest.length < 12 then rest.length
  else min (12 + (beVal (rest.take 4)).toNat) rest.length

/-- The slices of the successive chunks of a buffer (R139 step 2). Every extent of a non-empty rest is
at least one byte, so the buffer's length is fuel enough. -/
def chunkSlices : Nat → List Byte → List (List Byte)
  | 0, _ => []
  | _ + 1, [] => []
  | fuel + 1, rest =>
    rest.take (chunkExtent rest) :: chunkSlices fuel (rest.drop (chunkExtent rest))

/-- What the host procedure for the container answers (R139). -/
inductive HostPngResult where
  /-- `InvalidSignature`, the host's own answer (step 1). -/
  | invalidSignature
  /-- The first chunk that was not OK, by its error code (step 4). -/
  | chunkError (code : BitVec 4)
  /-- The chunks, in order. -/
  | chunks (cs : List Chunk)
deriving DecidableEq, Repr

/-- Steps 3 and 4 of R139: a PARSE session for each slice, one after the other on the one framer; the
first error aborts. -/
def hostParseSlices : List (List Byte) → State → Option (Except (BitVec 4) (List Chunk))
  | [], _ => some (.ok [])
  | S :: rest, s =>
    match execAll (parseSession S) s with
    | .fault _ => none
    | .refused _ => none
    | .next t =>
      if hostOk t then
        match hostParseSlices rest t with
        | some (.ok cs) => some (.ok (hostChunk S t :: cs))
        | some (.error e) => some (.error e)
        | none => none
      else some (.error (hostErr t))

/-- R139, the informative host procedure for `Png::from_bytes`. -/
def hostPngFromBytes (bytes : List Byte) (s : State) : Option HostPngResult :=
  if bytes.take 8 ≠ pngSignature then some .invalidSignature
  else
    match hostParseSlices (chunkSlices bytes.length (bytes.drop 8)) s with
    | some (.error e) => some (.chunkError e)
    | some (.ok cs) => some (.chunks cs)
    | none => none

end Sys2Proof.Machine
end

