-- ==== Sys2Proof/Safety.lean ====
section
/-! DEFINITION. What the rules say of every state after reset: the framer's control states
(42_framer.md rule R120) and the invariant of the reachable states, in the terms the statements use. -/

namespace Sys2Proof

/-- The commands of the CRC unit (R104, R105). -/
def Instr.isCrcCommand : Instr → Bool
  | .nop => false
  | .crcInit => true
  | .crcByte _ => true
  | .clear => false
  | .frParse => false
  | .frCompose => false
  | .frType => false
  | .frByte _ => false
  | .frEnd => false
  | .frAbort => false

/-- The commands of the framer (42_framer.md). -/
def Instr.isFramerCommand : Instr → Bool
  | .nop => false
  | .crcInit => false
  | .crcByte _ => false
  | .clear => false
  | .frParse => true
  | .frCompose => true
  | .frType => true
  | .frByte _ => true
  | .frEnd => true
  | .frAbort => true

end Sys2Proof

namespace Sys2Proof.Machine

/-- The control state IDLE (R120). -/
def State.isIdle (s : State) : Prop :=
  s.fr_mode = .idle ∧ s.fr_busy = false ∧ s.fr_done = false

/-- The control state OPEN(m), m one of PARSE, COMPOSE and TYPE (R120). -/
def State.isOpen (m : Mode) (s : State) : Prop :=
  m ≠ .idle ∧ s.fr_mode = m ∧ s.fr_busy = true ∧ s.fr_done = false

/-- The control state DONE(m, e) (R120). -/
def State.isDone (m : Mode) (e : BitVec 4) (s : State) : Prop :=
  m ≠ .idle ∧ s.fr_mode = m ∧ s.fr_busy = false ∧ s.fr_done = true ∧ s.fr_err = e

/-- The error codes FR.END can record in each mode (R171), NONE among them. -/
def errorsOf : Mode → List (BitVec 4)
  | .idle => [errNone]
  | .parse => [errNone, FrameError.tooShort.code, FrameError.lengthMismatch.code,
      FrameError.invalidTypeCode.code, FrameError.crcMismatch.code]
  | .compose => [errNone, FrameError.invalidLength.code, FrameError.invalidTypeCode.code,
      FrameError.dataTooLong.code]
  | .type => [errNone, FrameError.invalidLength.code, FrameError.invalidTypeCode.code]

/-- Every framer element has its reset value (R133, R190). -/
def State.framerReset (s : State) : Prop :=
  s.isIdle ∧ s.fr_err = errNone ∧ s.fr_count = 0 ∧ s.fr_len = 0 ∧ s.fr_type = 0 ∧
    s.fr_crc = crcInitial ∧ s.fr_crc_rx = 0

/-- The two states agree on the nine framer elements. -/
def State.sameFramer (s t : State) : Prop :=
  s.fr_mode = t.fr_mode ∧ s.fr_busy = t.fr_busy ∧ s.fr_done = t.fr_done ∧ s.fr_err = t.fr_err ∧
    s.fr_count = t.fr_count ∧ s.fr_len = t.fr_len ∧ s.fr_type = t.fr_type ∧
    s.fr_crc = t.fr_crc ∧ s.fr_crc_rx = t.fr_crc_rx

/-- What holds at reset and after every step. -/
structure State.Inv (s : State) : Prop where
  /-- R120: exactly one of the control states; no other combination. -/
  control : s.isIdle ∨ (∃ m, s.isOpen m) ∨ ∃ m e, s.isDone m e
  /-- R120, R133: in IDLE every framer element has its reset value. -/
  idle_reset : s.fr_mode = .idle → s.framerReset
  /-- R25: "0 (NONE) from the session start until FR.END". -/
  err_none_until_end : s.fr_done = false → s.fr_err = errNone
  /-- R171, R172: only the codes of the mode. -/
  err_of_mode : s.fr_err ∈ errorsOf s.fr_mode
  /-- R33, R173: "the value 3 is never written". -/
  last_code : s.last ≠ 3
  /-- R28: "a byte not yet received reads 0x00". -/
  type_unreceived : ∀ j, typeRcvd s ≤ j → typeByte s.fr_type j = 0
  /-- R27, R29, R30: TYPE never writes `fr_len`, `fr_crc` and `fr_crc_rx`. -/
  type_untouched : s.fr_mode = .type → s.fr_len = 0 ∧ s.fr_crc = crcInitial ∧ s.fr_crc_rx = 0
  /-- R30: COMPOSE never writes `fr_crc_rx`. -/
  compose_untouched : s.fr_mode = .compose → s.fr_crc_rx = 0
  /-- R27, R128: in COMPOSE `fr_len` counts the data bytes mod 2^32, as far as `fr_count` counts. -/
  compose_len : s.fr_mode = .compose → s.fr_count.toNat < 2 ^ 64 - 1 →
    s.fr_len.toNat = (s.fr_count.toNat - 4) % 2 ^ 32
  /-- R127: before the type bytes the framer's CRC register is untouched, and before the CRC field
  `fr_crc_rx` is. -/
  parse_untouched : s.fr_mode = .parse →
    (s.fr_count.toNat ≤ 4 → s.fr_crc = crcInitial) ∧
    (s.fr_count.toNat ≤ 8 + s.fr_len.toNat → s.fr_crc_rx = 0)

end Sys2Proof.Machine
end

