-- ==== Sys2Proof/Certificates/Slice0/Obligations.lean ====
section
/-! DEFINITION. The statements for the provers, rule by rule of spec/. -/

open Sys2Proof Sys2Proof.Machine

/-! ### Ports, reset and the command step -/

/-- R90, R194 (derived): with `rst` low and a word offered, a step is `exec` of the command the word
decodes to, on the state whose current pins are consumed; an encoded command runs as itself; and a word
that decodes to none has the illegal word's effect. -/
def Obligations.StepRunsTheDecodedCommand : Prop :=
  ∀ s : State, s.pins.rst = false → s.pins.cmd_valid = true →
    (∀ i, decode s.pins.cmd_data = .ok i → step s = exec i s.popPins) ∧
    (∀ i, s.pins.cmd_data = encode i → step s = exec i s.popPins) ∧
    (∀ e, decode s.pins.cmd_data = .error e →
      step s = .next { s.popPins with ill_sticky := true, last := 1 })

/-- R190 (derived): a rising edge with `rst` high gives every element its reset value whatever it held and
whatever is offered; `cmd_ready` is then 0 and no word is accepted; and what the read map reads after it.
That the edge consumes the current entry of `cycles` and leaves the coming ones is the model's choice, log
entry 1. -/
def Obligations.ResetEdgeSetsEveryElement : Prop :=
  (∀ s : State, s.pins.rst = true →
    s.cmdReady = false ∧ s.accepts = false ∧
    step s = .next
      { crc_state := 0xFFFFFFFF, fr_mode := .idle, fr_busy := false, fr_done := false, fr_err := 0,
        fr_count := 0, fr_len := 0, fr_type := 0, fr_crc := 0xFFFFFFFF, fr_crc_rx := 0,
        ill_sticky := false, rej_sticky := false, last := 0, cycles := s.cycles.tail }) ∧
  (∀ cs : List PortIn, ∀ idx : ReadIndex, readPort { State.reset with cycles := cs } idx =
    if idx = 1 then 0xFFFFFFFF else if idx = 5 then 1 else 0)

/-- R194, R50 (derived): `cmd_ready = not rst`; with `cmd_valid = 1` and `rst = 0` a word is accepted, and
applied whole at that edge; `rd_data` is the read of the state before the edge. That the 13 elements stay
in a cycle with `cmd_valid = 0` and `rst = 0` is inferred: no word is accepted there (R50), and only
commands and reset write an element (R21 to R34). That such an edge consumes the current entry of `cycles`
is the model's choice, log entry 1. -/
def Obligations.OneClockCycle : Prop :=
  ∀ s : State,
    s.cmdReady = !s.pins.rst ∧
    s.rdData = readPort s s.pins.rd_addr ∧
    (s.pins.cmd_valid = true → s.pins.rst = false →
      ∃ t, step s = .next t ∧ stepWord s.pins.cmd_data s.popPins = .next t) ∧
    (s.pins.cmd_valid = false → s.pins.rst = false → step s = .next { s with cycles := s.cycles.tail })

/-- R59 (derived): the words a host offers in successive cycles execute strictly in acceptance order,
one at a time, with nothing between them. That the coming cycles stand in `cycles`, one for each step, is the
model's choice, log entry 1. -/
def Obligations.OfferedWordsRunInOrder : Prop :=
  ∀ (ws : List Word) (rest : List PortIn) (s : State),
    s.cycles = ws.map PortIn.offer ++ rest →
    ∃ t, execWords ws { s with cycles := rest } = .next t ∧
      Host.Core.run core ws.length s = .next t

/-- R90, R170, R194 (derived): the machine never stops: every state, whatever its pins, has a next state.
That one entry of `cycles` is consumed, one step being one cycle (R194), is the model's choice, log
entry 1. -/
def Obligations.EveryStateHasANextState : Prop :=
  ∀ s : State, ∃ t, step s = .next t ∧ t.cycles = s.cycles.tail

/-- R90: every word in every state has a next state; an illegal word writes `ill_sticky` and `last`
only; a legal one is executed by its row and ends accepted with `last` = 0, or rejected with `rej_sticky`
and `last` = 2 as its only writes. -/
def Obligations.EveryWordHasOneOutcome : Prop :=
  ∀ (w : Word) (s : State), ∃ t, stepWord w s = .next t ∧
    (∀ e, decode w = .error e → t = { s with ill_sticky := true, last := 1 }) ∧
    (∀ i, decode w = .ok i →
      exec i s = .next t ∧ (t.last = 0 ∨ t = { s with rej_sticky := true, last := 2 }))

/-- R173: which outcome code each word leaves in `last`, and the side effects of the two codes that are
not ACCEPTED; code 3 is never left. -/
def Obligations.OutcomeCodeOfEveryWord : Prop :=
  ∀ (w : Word) (s t : State), stepWord w s = .next t →
    t.last ≠ 3 ∧
    (t.last = 1 ↔ ∃ e, decode w = .error e) ∧
    (t.last = 2 ↔ s.fr_busy = false ∧ (decode w = .ok .frEnd ∨ ∃ b, decode w = .ok (.frByte b))) ∧
    (t.last = 1 → t = { s with ill_sticky := true, last := 1 }) ∧
    (t.last = 2 → t = { s with rej_sticky := true, last := 2 })

/-! ### Encoding -/

/-- R73, R78 (derived): words written out from the opcode map and from the programs of
95_test_vectors.md decode to their commands. -/
def Obligations.WrittenWordsDecode : Prop :=
  decode 0x00000000 = .ok .nop ∧ decode 0x00000001 = .ok .crcInit ∧
  decode 0x00003102 = .ok (.crcByte 0x31) ∧ decode 0x00000003 = .ok .clear ∧
  decode 0x00000010 = .ok .frParse ∧ decode 0x00000011 = .ok .frCompose ∧
  decode 0x00000012 = .ok .frType ∧ decode 0x0000AE13 = .ok (.frByte 0xAE) ∧
  decode 0x00000014 = .ok .frEnd ∧ decode 0x00000015 = .ok .frAbort ∧
  decode 0x00000004 = .error .reservedOp ∧ decode 0x00014113 = .error .reservedBits ∧
  decode 0x00000114 = .error .zFormOperand

/-- R70, R73 (derived): the decoder gives back every command, with every operand, from its encoding. -/
def Obligations.DecodeOfEncode : Prop :=
  ∀ i : Instr, decode (encode i) = .ok i

/-- R74 (derived): every legal word is the encoding of the command it decodes to; no bit of it is
ignored. -/
def Obligations.EncodeOfDecode : Prop :=
  ∀ (w : Word) (i : Instr), decode w = .ok i → encode i = w

/-- R73: the ten rows of the opcode map with their OP, form, match and mask and the command each stands for
(shown with operand byte 0x5A); no word selects two rows; and a word that selects a row decodes to that
row's command with bits 15:8 as its operand. -/
def Obligations.OpcodeMapRowsAreDisjoint : Prop :=
  (opcodeRows.map fun r => (r.mnemonic, r.op, r.form, r.matchBits, r.mask, r.build 0x5A)) =
    [ ("NOP", 0x00, .zForm, 0x00000000, 0xFFFFFFFF, .nop),
      ("CRC.INIT", 0x01, .zForm, 0x00000001, 0xFFFFFFFF, .crcInit),
      ("CRC.BYTE", 0x02, .bForm, 0x00000002, 0xFFFF00FF, .crcByte 0x5A),
      ("CLEAR", 0x03, .zForm, 0x00000003, 0xFFFFFFFF, .clear),
      ("FR.PARSE", 0x10, .zForm, 0x00000010, 0xFFFFFFFF, .frParse),
      ("FR.COMPOSE", 0x11, .zForm, 0x00000011, 0xFFFFFFFF, .frCompose),
      ("FR.TYPE", 0x12, .zForm, 0x00000012, 0xFFFFFFFF, .frType),
      ("FR.BYTE", 0x13, .bForm, 0x00000013, 0xFFFF00FF, .frByte 0x5A),
      ("FR.END", 0x14, .zForm, 0x00000014, 0xFFFFFFFF, .frEnd),
      ("FR.ABORT", 0x15, .zForm, 0x00000015, 0xFFFFFFFF, .frAbort) ] ∧
  (∀ w : Word, (opcodeRows.filter fun r => r.selects w).length ≤ 1) ∧
  (∀ w : Word, ∀ r ∈ opcodeRows, w &&& r.mask = r.matchBits →
    decode w = .ok (r.build (w.extractLsb' 8 8)))

/-- R74: a word is illegal exactly when its OP is not in the table, or its RSV bits are not all 0, or it
has a Z-form OP and a non-zero IMM8; exactly 520 words are legal; an illegal word has the effect of R91
in every state. -/
def Obligations.WhichWordsAreIllegal : Prop :=
  (∀ w : Word, (∃ e, decode w = .error e) ↔
    ((∀ r ∈ opcodeRows, r.op ≠ w.extractLsb' 0 8) ∨ w.extractLsb' 16 16 ≠ 0 ∨
      ((∃ r ∈ opcodeRows, r.op = w.extractLsb' 0 8 ∧ r.form = .zForm) ∧ w.extractLsb' 8 8 ≠ 0))) ∧
  { w : Word | ∃ i, decode w = .ok i }.ncard = 520 ∧
  (∀ (w : Word) (s : State), (∃ e, decode w = .error e) →
    stepWord w s = .next { s with ill_sticky := true, last := 1 })

/-- R71, R72: in a legal word of Z-form IMM8 is 0x00, and in one of B-form the operand byte is bits 15:8
as they are; no other command has an operand. -/
def Obligations.OperandIsBits15To8 : Prop :=
  ∀ (w : Word) (i : Instr), decode w = .ok i →
    (i.form = .zForm → w.extractLsb' 8 8 = 0) ∧
    (i.form = .bForm ↔ (i = .crcByte (w.extractLsb' 8 8) ∨ i = .frByte (w.extractLsb' 8 8)))

/-! ### Control commands -/

/-- R91: an illegal word, in every state, sets `ill_sticky` and `last` = 1 and changes nothing else; a
malformed FR.BYTE or FR.END is illegal whether or not a session is open; and the rule's example. -/
def Obligations.IllegalWordSetsIllOnly : Prop :=
  (∀ (w : Word) (s : State) (e : DecodeError), decode w = .error e →
    stepWord w s = .next { s with ill_sticky := true, last := 1 }) ∧
  (∀ (w : Word) (s : State), (w.extractLsb' 0 8 = 0x13 ∨ w.extractLsb' 0 8 = 0x14) →
    (w.extractLsb' 16 16 ≠ 0 ∨ (w.extractLsb' 0 8 = 0x14 ∧ w.extractLsb' 8 8 ≠ 0)) →
    stepWord w s = .next { s with ill_sticky := true, last := 1 }) ∧
  (∃ t, stepWord 0x00000004 State.reset = .next t ∧ readPort t 0x0 = 0x00050000)

/-- R92: NOP writes `last` <- 0 and nothing else, so the sticky bits stay; and the rule's example. -/
def Obligations.NopWritesLastOnly : Prop :=
  (∀ s : State, exec .nop s = .next { s with last := 0 }) ∧
  (∃ t, execWords [0x00000004, 0x00000000] State.reset = .next t ∧ readPort t 0x0 = 0x00010000)

/-- R93: CLEAR clears both sticky bits and `last`, and changes nothing else; and the rule's example. -/
def Obligations.ClearClearsTheStickyBits : Prop :=
  (∀ s : State, exec .clear s =
    .next { s with ill_sticky := false, rej_sticky := false, last := 0 }) ∧
  (∃ t, execWords [0x00000004, 0x00000014, 0x00000003] State.reset = .next t ∧
    readPort t 0x0 = 0x00000000)

/-! ### The CRC function and the CRC unit -/

/-- R101: the byte update is eight passes of the reflected shift over `c ^ zext(b)`; it equals its table
form for every register and byte; and the table entries the rule names. -/
def Obligations.ByteUpdateAndItsTableForm : Prop :=
  (∀ (c : Word) (b : Byte), upd c b =
    (fun x : Word => if x.getLsbD 0 then (x >>> 1) ^^^ 0xEDB88320 else x >>> 1)^[8]
      (c ^^^ b.setWidth 32)) ∧
  (∀ (c : Word) (b : Byte),
    upd c b = (c >>> 8) ^^^ upd 0 (((c ^^^ b.setWidth 32) &&& 0xFF).setWidth 8)) ∧
  upd 0 0x00 = 0x00000000 ∧ upd 0 0x01 = 0x77073096 ∧ upd 0 0x02 = 0xEE0E612C ∧
  upd 0 0x80 = 0xEDB88320 ∧ upd 0 0xFF = 0x2D02EF8D

/-- R103 (a), (b) and (d) (derived): crc32 of the empty message is 0, the register is incremental in any
split, and crc32 is affine on messages of equal length. -/
def Obligations.CrcIsIncrementalAndAffine : Prop :=
  crc32 [] = 0 ∧
  (∀ x y : List Byte, raw (x ++ y) = y.foldl upd (raw x)) ∧
  (∀ x y z : List Byte, x.length = y.length → y.length = z.length →
    crc32 (List.zipWith (· ^^^ ·) (List.zipWith (· ^^^ ·) x y) z) = crc32 x ^^^ crc32 y ^^^ crc32 z)

/-- R103 (c) (derived): a message that differs from `S` in exactly one bit has a different crc32. -/
def Obligations.CrcDetectsEverySingleBitError : Prop :=
  ∀ (S : List Byte) (k : Nat) (b : Byte) (j : Nat), S[k]? = some b → j < 8 →
    crc32 (S.set k (b ^^^ (1#8 <<< j))) ≠ crc32 S

/-- R108 (derived): the residue of a message with its crc32 appended least significant byte first; with
the crc32 appended big-endian, as a chunk stores it, there is no such constant. -/
def Obligations.ResidueOfAppendedCrc : Prop :=
  (∀ S : List Byte, raw (S ++ le32 (crc32 S)) = 0xDEBB20E3 ∧
    crc32 (S ++ le32 (crc32 S)) = 0x2144DF1C) ∧
  (∃ S S' : List Byte, raw (S ++ be32 (crc32 S)) ≠ raw (S' ++ be32 (crc32 S')))

/-- R104: CRC.INIT loads 0xFFFFFFFF and is never rejected; nothing else but `last` changes, the framer's
register included; CRC_STATE and CRC_VALUE then read 0xFFFFFFFF and 0; right after reset nothing but
LAST is affected. -/
def Obligations.CrcInitLoadsTheInitialValue : Prop :=
  (∀ s : State, exec .crcInit s = .next { s with crc_state := 0xFFFFFFFF, last := 0 }) ∧
  (∀ s t : State, exec .crcInit s = .next t →
    readPort t 0x1 = 0xFFFFFFFF ∧ readPort t 0x2 = 0x00000000) ∧
  exec .crcInit State.reset = .next State.reset

/-- R105: CRC.BYTE b updates `crc_state` by `upd` and is never rejected; nothing else but `last`
changes; FR.BYTE never changes `crc_state`; and the rule's values. -/
def Obligations.CrcByteAbsorbsOneByte : Prop :=
  (∀ (b : Byte) (s : State),
    exec (.crcByte b) s = .next { s with crc_state := upd s.crc_state b, last := 0 }) ∧
  (∀ (b : Byte) (s : State), ∃ t, exec (.frByte b) s = .next t ∧ t.crc_state = s.crc_state) ∧
  upd 0xFFFFFFFF 0x00 = 0x2DFD1072 ∧ upd 0xFFFFFFFF 0xFF = 0x00FFFFFF ∧
  (∃ t, exec (.crcByte 0x61) State.reset = .next t ∧ readPort t 0x1 = 0x174841BC ∧
    readPort t 0x2 = 0xE8B7BE43 ∧ crc32 [0x61] = 0xE8B7BE43)

/-- R106, R54 (derived): CRC_STATE is `crc_state` and CRC_VALUE its exclusive-or with 0xFFFFFFFF; after CRC.INIT and the
CRC.BYTEs of `S`, from any state, CRC_VALUE is crc32(S); the bytes of `BE32(CRC_VALUE)` are the chunk's
CRC field. What `chunkBytes` is for a `T` of another length than 4, or past 2^32-1 data bytes (a length
field N mod 2^32), is the model's choice, log entry 11. -/
def Obligations.CrcUnitComputesCrc32 : Prop :=
  (∀ s : State, readPort s 0x1 = s.crc_state ∧ readPort s 0x2 = s.crc_state ^^^ 0xFFFFFFFF) ∧
  (∀ (S : List Byte) (s : State),
    ∃ t, execAll (.crcInit :: S.map .crcByte) s = .next t ∧ readPort t 0x2 = crc32 S) ∧
  (∀ (T D : List Byte) (s t : State), execAll (.crcInit :: (T ++ D).map .crcByte) s = .next t →
    chunkBytes T D = be32 (BitVec.ofNat 32 D.length) ++ T ++ D ++ be32 (readPort t 0x2))

/-- R107: `crc_state` is written only by the CRC unit's commands and `fr_crc` only by the framer's; what
a command leaves in one unit does not depend on the other; so interleaving changes neither result. -/
def Obligations.CrcUnitAndFramerAreIndependent : Prop :=
  (∀ (i : Instr) (s t : State), exec i s = .next t →
    (i.isCrcCommand = false → t.crc_state = s.crc_state) ∧
    (i.isFramerCommand = false → s.sameFramer t)) ∧
  (∀ (i : Instr) (s s' t t' : State), exec i s = .next t → exec i s' = .next t' →
    (s.crc_state = s'.crc_state → t.crc_state = t'.crc_state) ∧
    (s.sameFramer s' → t.sameFramer t')) ∧
  (∀ (is : List Instr) (s : State), ∃ t u v,
    execAll is s = .next t ∧
    execAll (is.filter Instr.isCrcCommand) s = .next u ∧ u.crc_state = t.crc_state ∧
    execAll (is.filter Instr.isFramerCommand) s = .next v ∧ v.sameFramer t)

/-! ### The framer, command by command -/

/-- R121 to R124: each session start is accepted in every state, writes the nine framer elements without
reading them, and leaves `crc_state` and the sticky bits; its STATUS fields and FR_FLAGS; and each rule's
example. -/
def Obligations.SessionStartOpensAFreshSession : Prop :=
  (∀ (s : State) (i : Instr) (m : Mode),
    ((i = .frParse ∧ m = .parse) ∨ (i = .frCompose ∧ m = .compose) ∨ (i = .frType ∧ m = .type)) →
    ∃ t, exec i s = .next t ∧
      t = { s with fr_mode := m, fr_busy := true, fr_done := false, fr_err := 0, fr_count := 0,
                   fr_len := 0, fr_type := 0, fr_crc := 0xFFFFFFFF, fr_crc_rx := 0, last := 0 } ∧
      (readPort t 0x0).extractLsb' 0 2 =
        (if i = .frParse then 1 else if i = .frCompose then 2 else 3) ∧
      (readPort t 0x0).extractLsb' 2 14 = 1 ∧ (readPort t 0x0).extractLsb' 18 2 = 0 ∧
      readPort t 0x5 = 0x00000001) ∧
  (∃ t, execAll (typeSession [0x52, 0x75, 0x53, 0x74]) State.reset = .next t ∧
    readPort t 0x0 = 0x0000001B ∧ readPort t 0x4 = 0x52755374 ∧ readPort t 0x5 = 0x0000047B) ∧
  (∃ t, execAll (parseSession
      [0x00, 0x00, 0x00, 0x00, 0x49, 0x45, 0x4E, 0x44, 0xAE, 0x42, 0x60, 0x82]) State.reset = .next t ∧
    readPort t 0x0 = 0x00000019) ∧
  (∃ t, execAll (composeSession [0x72, 0x75, 0x53, 0x74, 0x68, 0x65, 0x6C, 0x6C, 0x6F])
      State.reset = .next t ∧
    readPort t 0x3 = 5 ∧ readPort t 0x7 = 0xAE508D6F)

/-- R125: FR.BYTE with no session open is rejected and changes nothing else; with one open it is accepted,
the byte is absorbed by the mode's rule at the position the counter held, the counter goes up by one and
saturates at 2^64-1, and the elements that no slice byte writes stay; and the rule's example. -/
def Obligations.FrByteIsCountedOrRejected : Prop :=
  (∀ (b : Byte) (s : State), s.fr_busy = false →
    exec (.frByte b) s = .next { s with rej_sticky := true, last := 2 }) ∧
  (∀ (b : Byte) (s : State), s.fr_busy = true → ∃ t, exec (.frByte b) s = .next t ∧
    t.fr_count.toNat = min (s.fr_count.toNat + 1) (2 ^ 64 - 1) ∧
    t = { s with fr_count := t.fr_count, fr_len := t.fr_len, fr_type := t.fr_type, fr_crc := t.fr_crc,
                 fr_crc_rx := t.fr_crc_rx, last := 0 } ∧
    (s.fr_mode = .type →
      t = { absorbT s.fr_count.toNat b s with fr_count := t.fr_count, last := 0 }) ∧
    (s.fr_mode = .parse →
      t = { absorbP s.fr_count.toNat b s with fr_count := t.fr_count, last := 0 }) ∧
    (s.fr_mode = .compose →
      t = { absorbC s.fr_count.toNat b s with fr_count := t.fr_count, last := 0 }) ∧
    (s.fr_mode = .idle → t = { s with fr_count := t.fr_count, last := 0 })) ∧
  (∃ t, exec (.frByte 0x41) State.reset = .next t ∧ readPort t 0x0 = 0x000A0000)

/-- R126: in a TYPE session byte `i` of the slice, `i` < 4, becomes type byte `i` and leaves the other
three; a later byte is only counted. -/
def Obligations.FrByteInATypeSession : Prop :=
  ∀ (b : Byte) (s : State), s.fr_busy = true → s.fr_mode = .type →
    ∃ t, exec (.frByte b) s = .next t ∧
      t = { s with fr_type := t.fr_type, fr_count := t.fr_count, last := 0 } ∧
      t.fr_count.toNat = min (s.fr_count.toNat + 1) (2 ^ 64 - 1) ∧
      (s.fr_count.toNat < 4 →
        t.fr_type.extractLsb' (24 - 8 * s.fr_count.toNat) 8 = b ∧
        ∀ j < 4, j ≠ s.fr_count.toNat →
          t.fr_type.extractLsb' (24 - 8 * j) 8 = s.fr_type.extractLsb' (24 - 8 * j) 8) ∧
      (4 ≤ s.fr_count.toNat → t.fr_type = s.fr_type)

/-- R127: what slice byte `i` of a PARSE session writes, by its position, with L the length before the
command, all comparisons on naturals; and what the registers hold after the 4 length bytes and after
exactly 12 + L bytes. -/
def Obligations.FrByteInAParseSession : Prop :=
  (∀ (b : Byte) (s : State), s.fr_busy = true → s.fr_mode = .parse →
    exec (.frByte b) s = .next
      (let n : Count := BitVec.ofNat 64 (min (s.fr_count.toNat + 1) (2 ^ 64 - 1))
       if s.fr_count.toNat < 4 then
         { s with fr_len := (s.fr_len <<< 8) ||| b.setWidth 32, fr_count := n, last := 0 }
       else if s.fr_count.toNat < 8 then
         { s with fr_type := setTypeByte s.fr_type (s.fr_count.toNat - 4) b,
                  fr_crc := upd s.fr_crc b, fr_count := n, last := 0 }
       else if s.fr_count.toNat < 8 + s.fr_len.toNat then
         { s with fr_crc := upd s.fr_crc b, fr_count := n, last := 0 }
       else if s.fr_count.toNat < 12 + s.fr_len.toNat then
         { s with fr_crc_rx := (s.fr_crc_rx <<< 8) ||| b.setWidth 32, fr_count := n, last := 0 }
       else { s with fr_count := n, last := 0 })) ∧
  (∀ (S : List Byte) (s : State), ∃ t, execAll (.frParse :: S.map .frByte) s = .next t ∧
    (4 ≤ S.length → t.fr_len = beVal (S.take 4)) ∧
    (S.length = 12 + t.fr_len.toNat →
      t.fr_type = beVal ((S.drop 4).take 4) ∧
      t.fr_crc = raw ((S.drop 4).take (4 + t.fr_len.toNat)) ∧
      t.fr_crc_rx = beVal ((S.drop (8 + t.fr_len.toNat)).take 4)))

/-- R128: what slice byte `i` of a COMPOSE session writes; after n >= 4 bytes `fr_crc` is raw(slice) and
`fr_len` is (n - 4) mod 2^32. -/
def Obligations.FrByteInAComposeSession : Prop :=
  (∀ (b : Byte) (s : State), s.fr_busy = true → s.fr_mode = .compose →
    exec (.frByte b) s = .next
      (let n : Count := BitVec.ofNat 64 (min (s.fr_count.toNat + 1) (2 ^ 64 - 1))
       if s.fr_count.toNat < 4 then
         { s with fr_type := setTypeByte s.fr_type s.fr_count.toNat b,
                  fr_crc := upd s.fr_crc b, fr_count := n, last := 0 }
       else { s with fr_crc := upd s.fr_crc b, fr_len := BitVec.ofNat 32 (s.fr_len.toNat + 1),
                     fr_count := n, last := 0 })) ∧
  (∀ (S : List Byte) (s : State), ∃ t, execAll (.frCompose :: S.map .frByte) s = .next t ∧
    t.fr_crc_rx = 0 ∧
    (4 ≤ S.length → t.fr_crc = raw S ∧ t.fr_len.toNat = (S.length - 4) % 2 ^ 32))

/-- R129: FR.END with no session open is rejected; with one open it is accepted, clears BUSY, sets DONE and
the error code of the mode's resolution, and changes nothing else; an empty slice resolves TooShort in PARSE and InvalidLength in
COMPOSE and TYPE; a second FR.END is rejected and leaves the first result; and the rule's example. -/
def Obligations.FrEndClosesTheSession : Prop :=
  (∀ s : State, s.fr_busy = false → exec .frEnd s = .next { s with rej_sticky := true, last := 2 }) ∧
  (∀ s : State, s.fr_busy = true → ∃ t, exec .frEnd s = .next t ∧
    t = { s with fr_err := t.fr_err, fr_busy := false, fr_done := true, last := 0 } ∧
    ((readPort t 0x0).getLsbD 4 = true ↔ t.fr_err = 0) ∧
    (s.fr_mode = .type → t.fr_err = resolveT s) ∧ (s.fr_mode = .parse → t.fr_err = resolveP s) ∧
    (s.fr_mode = .compose → t.fr_err = resolveC s) ∧ (s.fr_mode = .idle → t.fr_err = 0) ∧
    exec .frEnd t = .next { t with rej_sticky := true, last := 2 }) ∧
  (∀ s : State, s.fr_busy = true → s.fr_count = 0 → ∃ t, exec .frEnd s = .next t ∧
    (s.fr_mode = .parse → t.fr_err = 1) ∧
    (s.fr_mode = .compose → t.fr_err = 5) ∧ (s.fr_mode = .type → t.fr_err = 5)) ∧
  (∃ t, execAll [.frParse, .frEnd] State.reset = .next t ∧ readPort t 0x0 = 0x00000109)

/-- R130: the result of a TYPE session: InvalidLength unless exactly 4 bytes, then InvalidTypeCode unless
all are letters. -/
def Obligations.TypeSessionResult : Prop :=
  (∀ s : State, s.fr_busy = true → s.fr_mode = .type →
    exec .frEnd s = .next
      { s with fr_err :=
                 (if s.fr_count.toNat ≠ 4 then 5 else if lettersOk s = false then 3 else 0),
               fr_busy := false, fr_done := true, last := 0 }) ∧
  (∀ (S : List Byte) (s : State), ∃ t, execAll (typeSession S) s = .next t ∧
    t.fr_err = docErrCode (docTypeParseStr S) ∧
    (S.length = 4 → (t.fr_err = 0 ∨ t.fr_err = 3) ∧ t.fr_type = beVal S))

/-- R131: the result of a PARSE session, the checks in the document's step order; when step 3 is reached
all four type bytes have been received; a saturated count gives LengthMismatch. -/
def Obligations.ParseSessionResult : Prop :=
  ∀ s : State, s.fr_busy = true → s.fr_mode = .parse →
    exec .frEnd s = .next
      { s with fr_err :=
                 (if s.fr_count.toNat < 12 then 1
                  else if s.fr_count.toNat ≠ 12 + s.fr_len.toNat then 2
                  else if lettersOk s = false then 3
                  else if s.fr_crc ^^^ 0xFFFFFFFF ≠ s.fr_crc_rx then 4 else 0),
               fr_busy := false, fr_done := true, last := 0 } ∧
    (s.fr_count.toNat = 12 + s.fr_len.toNat → typeRcvd s = 4) ∧
    (s.fr_count.toNat = 2 ^ 64 - 1 → ∀ t, exec .frEnd s = .next t → t.fr_err = 2)

/-- R132: the result of a COMPOSE session; when it is 0, FR_LEN is exactly the number of data bytes,
FR_TYPE holds the type bytes and FR_CRC_CALC is crc32(type ++ data). -/
def Obligations.ComposeSessionResult : Prop :=
  (∀ s : State, s.fr_busy = true → s.fr_mode = .compose →
    exec .frEnd s = .next
      { s with fr_err :=
                 (if s.fr_count.toNat < 4 then 5
                  else if lettersOk s = false then 3
                  else if s.fr_count.toNat - 4 > 2 ^ 32 - 1 then 6 else 0),
               fr_busy := false, fr_done := true, last := 0 }) ∧
  (∀ (S : List Byte) (s : State), ∃ t, execAll (composeSession S) s = .next t ∧
    (t.fr_err = 0 →
      (readPort t 0x3).toNat = S.length - 4 ∧ be32 (readPort t 0x4) = S.take 4 ∧
      readPort t 0x7 = crc32 S))

/-- R133: FR.ABORT gives every framer element its reset value, in every state, and leaves `crc_state` and
the sticky bits; in IDLE only `last` changes; STATUS fields and FR_FLAGS; and the rule's example. -/
def Obligations.AbortReturnsTheFramerToReset : Prop :=
  (∀ s : State, ∃ t, exec .frAbort s = .next t ∧
    t = { s with fr_mode := .idle, fr_busy := false, fr_done := false, fr_err := 0, fr_count := 0,
                 fr_len := 0, fr_type := 0, fr_crc := 0xFFFFFFFF, fr_crc_rx := 0, last := 0 } ∧
    (readPort t 0x0).extractLsb' 0 16 = 0 ∧ readPort t 0x5 = 0x00000001 ∧
    (s.framerReset → t = { s with last := 0 })) ∧
  (∃ t, execAll [.frParse, .frByte 0x00, .frAbort] State.reset = .next t ∧
    readPort t 0x0 = 0x00000000 ∧ readPort t 0x8 = 0)

/-! ### The framer as a whole -/

/-- R120: the table of control states, row by row; commands of the other unit, NOP, CLEAR and illegal
words move nothing; and in every run from reset, whatever the host does, the framer is in one of the
three control states. -/
def Obligations.ControlStatesMoveByTheTable : Prop :=
  (∀ s : State,
    (∃ t, exec .frParse s = .next t ∧ t.isOpen .parse) ∧
    (∃ t, exec .frCompose s = .next t ∧ t.isOpen .compose) ∧
    (∃ t, exec .frType s = .next t ∧ t.isOpen .type) ∧
    (∃ t, exec .frAbort s = .next t ∧ t.isIdle)) ∧
  (∀ s : State, s.isIdle →
    (∀ b, ∃ t, exec (.frByte b) s = .next t ∧ t.isIdle ∧ t.last = 2) ∧
    (∃ t, exec .frEnd s = .next t ∧ t.isIdle ∧ t.last = 2)) ∧
  (∀ (s : State) (m : Mode), s.isOpen m →
    (∀ b, ∃ t, exec (.frByte b) s = .next t ∧ t.isOpen m ∧ t.last = 0) ∧
    (∃ t, exec .frEnd s = .next t ∧ t.isDone m (resolve s) ∧ t.last = 0)) ∧
  (∀ (s : State) (m : Mode) (e : BitVec 4), s.isDone m e →
    (∀ b, ∃ t, exec (.frByte b) s = .next t ∧ t.isDone m e ∧ t.last = 2) ∧
    (∃ t, exec .frEnd s = .next t ∧ t.isDone m e ∧ t.last = 2)) ∧
  (∀ (w : Word) (s t : State), (∀ i, decode w = .ok i → i.isFramerCommand = false) →
    stepWord w s = .next t → s.sameFramer t) ∧
  (∀ (cs : List PortIn) (n : Nat) (t : State),
    Host.Core.run core n { State.reset with cycles := cs } = .next t →
    t.isIdle ∨ (∃ m, t.isOpen m) ∨ ∃ m e, t.isDone m e)

/-- Derived from R120, R171, R173 and R25 to R30: the reset state, whatever the host does next, meets the
invariant. -/
def Obligations.ResetMeetsTheInvariant : Prop :=
  ∀ cs : List PortIn, State.Inv { State.reset with cycles := cs }

/-- Derived from R120, R171, R173 and R25 to R30: every step, from every state that meets the invariant,
gives a state that meets it. -/
def Obligations.EveryStepKeepsTheInvariant : Prop :=
  ∀ s t : State, s.Inv → step s = .next t → t.Inv

/-- Derived from R21 to R33: which commands can change each state element (reset apart). -/
def Obligations.WhoWritesEachElement : Prop :=
  ∀ (w : Word) (s t : State), stepWord w s = .next t →
    (t.crc_state ≠ s.crc_state → decode w = .ok .crcInit ∨ ∃ b, decode w = .ok (.crcByte b)) ∧
    (t.fr_mode ≠ s.fr_mode →
      decode w = .ok .frParse ∨ decode w = .ok .frCompose ∨ decode w = .ok .frType ∨
        decode w = .ok .frAbort) ∧
    ((t.fr_busy ≠ s.fr_busy ∨ t.fr_done ≠ s.fr_done ∨ t.fr_err ≠ s.fr_err) →
      decode w = .ok .frParse ∨ decode w = .ok .frCompose ∨ decode w = .ok .frType ∨
        decode w = .ok .frAbort ∨ decode w = .ok .frEnd) ∧
    ((t.fr_count ≠ s.fr_count ∨ t.fr_len ≠ s.fr_len ∨ t.fr_type ≠ s.fr_type ∨ t.fr_crc ≠ s.fr_crc ∨
        t.fr_crc_rx ≠ s.fr_crc_rx) →
      decode w = .ok .frParse ∨ decode w = .ok .frCompose ∨ decode w = .ok .frType ∨
        decode w = .ok .frAbort ∨ ∃ b, decode w = .ok (.frByte b)) ∧
    (s.ill_sticky = true → t.ill_sticky = false → decode w = .ok .clear) ∧
    (s.ill_sticky = false → t.ill_sticky = true → ∃ e, decode w = .error e) ∧
    (s.rej_sticky = true → t.rej_sticky = false → decode w = .ok .clear) ∧
    (s.rej_sticky = false → t.rej_sticky = true →
      s.fr_busy = false ∧ (decode w = .ok .frEnd ∨ ∃ b, decode w = .ok (.frByte b)))

/-- R177 and R121 (derived): a session on the same slice gives the same framer registers and result
whatever the block did before, so retrying a failed session cannot succeed differently. -/
def Obligations.SessionResultIgnoresThePast : Prop :=
  ∀ (start : Instr) (S : List Byte) (s s' : State),
    (start = .frParse ∨ start = .frCompose ∨ start = .frType) →
    ∃ t t', execAll (session start S) s = .next t ∧ execAll (session start S) s' = .next t' ∧
      t.sameFramer t' ∧ t.crc_state = s.crc_state ∧ t.ill_sticky = s.ill_sticky ∧
      t.rej_sticky = s.rej_sticky

/-- R134: a PARSE session that ends with ERR = 0 on `S` has registers that serialize to `S` again, with
the CRC field the crc32 of type and data. -/
def Obligations.ParseRoundTrip : Prop :=
  ∀ (S : List Byte) (s t : State), execAll (parseSession S) s = .next t → t.fr_err = 0 →
    S = be32 t.fr_len ++ be32 t.fr_type ++ (S.drop 8).take t.fr_len.toNat ++ be32 t.fr_crc_rx ∧
    t.fr_crc_rx = crc32 (be32 t.fr_type ++ (S.drop 8).take t.fr_len.toNat) ∧
    S = chunkBytes (be32 t.fr_type) ((S.drop 8).take t.fr_len.toNat)

/-- R135: what a COMPOSE session that ends with ERR = 0 reports serializes to a slice on which a PARSE
session ends with ERR = 0, the same length and type, and that CRC received and computed. -/
def Obligations.ComposeThenParse : Prop :=
  ∀ (T D : List Byte) (s s' t : State), T.length = 4 →
    execAll (composeSession (T ++ D)) s = .next t → t.fr_err = 0 →
    ∃ t', execAll
        (parseSession (be32 (readPort t 0x3) ++ T ++ D ++ be32 (readPort t 0x7))) s' = .next t' ∧
      t'.fr_err = 0 ∧ t'.fr_len = t.fr_len ∧ t'.fr_type = t.fr_type ∧
      readPort t' 0x6 = readPort t' 0x7 ∧ readPort t' 0x7 = readPort t 0x7

/-- R140: a type whose byte 2 is no upper-case letter is accepted by TYPE, PARSE and COMPOSE with ERR = 0,
and IS_VALID reads 0. -/
def Obligations.IsValidIsReportedNotEnforced : Prop :=
  ∀ (T D : List Byte) (s : State), T.length = 4 → T.all isLetter = true →
    isLower (T.getD 2 0) = true → D.length ≤ 2 ^ 32 - 1 →
    (∃ t, execAll (typeSession T) s = .next t ∧ t.fr_err = 0 ∧ (readPort t 0x5).getLsbD 5 = false) ∧
    (∃ t, execAll (composeSession (T ++ D)) s = .next t ∧ t.fr_err = 0 ∧
      (readPort t 0x5).getLsbD 5 = false) ∧
    (∃ t, execAll (parseSession (chunkBytes T D)) s = .next t ∧ t.fr_err = 0 ∧
      (readPort t 0x5).getLsbD 5 = false)

/-- R141: after an accepted FR.END with an error, the registers hold the data that explains it. -/
def Obligations.ErrorComesWithItsData : Prop :=
  ∀ s t : State, s.fr_busy = true → exec .frEnd s = .next t →
    (t.fr_err = 2 → t.fr_count.toNat ≠ 12 + t.fr_len.toNat) ∧
    (t.fr_err = 1 → t.fr_count.toNat < 12) ∧
    (t.fr_err = 4 → readPort t 0x7 ≠ readPort t 0x6) ∧
    (t.fr_err = 3 → ∃ j < typeRcvd t, isLetter (typeByte t.fr_type j) = false ∧
      ∀ k < j, isLetter (typeByte t.fr_type k) = true) ∧
    (t.fr_err = 5 → (t.fr_mode = .type ∧ t.fr_count.toNat ≠ 4) ∨
      (t.fr_mode = .compose ∧ t.fr_count.toNat < 4))

/-- R142: one flipped bit in front of the CRC field of a slice that parses: a length byte gives
LengthMismatch or TooShort; a type byte gives InvalidTypeCode if it is no letter any more, else
CrcMismatch; a data byte gives CrcMismatch. -/
def Obligations.SingleBitFlipIsCaught : Prop :=
  ∀ (S : List Byte) (s s' t : State) (k : Nat) (b : Byte) (j : Nat),
    execAll (parseSession S) s = .next t → t.fr_err = 0 →
    k + 4 < S.length → S[k]? = some b → j < 8 →
    ∃ t', execAll (parseSession (S.set k (b ^^^ (1#8 <<< j)))) s' = .next t' ∧
      (k < 4 → t'.fr_err = 2 ∨ t'.fr_err = 1) ∧
      (4 ≤ k → k < 8 → t'.fr_err = if isLetter (b ^^^ (1#8 <<< j)) = true then 4 else 3) ∧
      (8 ≤ k → t'.fr_err = 4)

/-- R143: a slice that parses, truncated or padded to another length with its length field unchanged,
gives TooShort below 12 bytes and LengthMismatch otherwise. -/
def Obligations.WrongTotalLengthIsCaught : Prop :=
  ∀ (S S' : List Byte) (s s' t : State),
    execAll (parseSession S) s = .next t → t.fr_err = 0 →
    S'.length ≠ S.length → ((∃ n, S' = S.take n) ∨ S'.take 4 = S.take 4) →
    ∃ t', execAll (parseSession S') s' = .next t' ∧
      t'.fr_err = if S'.length < 12 then 1 else 2

/-- R144: after a session of any kind, failed or not, FR_LEN, FR_TYPE, FR_CRC_RX, FR_CRC_CALC and
FR_COUNT read exactly what they read before its FR.END, that is what the slice bytes gave them; with
ERR not 0, OK reads 0. -/
def Obligations.FailedSessionKeepsItsRegisters : Prop :=
  ∀ (start : Instr) (S : List Byte) (s : State),
    (start = .frParse ∨ start = .frCompose ∨ start = .frType) →
    ∃ u t, execAll (start :: S.map .frByte) s = .next u ∧ execAll (session start S) s = .next t ∧
      (∀ idx : ReadIndex, idx ≠ 0 → readPort t idx = readPort u idx) ∧
      (t.fr_err ≠ 0 → (readPort t 0x0).getLsbD 4 = false)

/-- R137 (derived): the host procedure for `Chunk::parse`, from any state and on any slice, answers what
the document's operation answers: the chunk, or the error kind's code. -/
def Obligations.ParseSessionRefinesTheDocument : Prop :=
  ∀ (S : List Byte) (s : State), hostChunkParse S s =
    some (match docChunkParse S with
      | .ok c => .ok c
      | .error e => .error e.code)

/-- R138, R132 (derived): the host procedure for `Chunk::new` and `to_bytes` answers the bytes of the
document's new chunk, or the code of the check that failed. The document's `new` cannot fail; that the
checks of decision D11 stand in the reference `docCompose` is the model's choice, log entry 10. -/
def Obligations.ComposeSessionRefinesTheDocument : Prop :=
  ∀ (T D : List Byte) (s : State), hostChunkNew T D s =
    some (match docCompose (T ++ D) with
      | .ok c => .ok c.toBytes
      | .error e => .error e.code)

/-- R136 (derived): the host procedure for `ChunkType::parse_str` answers the type bytes unchanged, with
the five accessors in bits 1 to 5 of FR_FLAGS, or the error kind's code. -/
def Obligations.TypeSessionRefinesTheDocument : Prop :=
  ∀ (S : List Byte) (s : State),
    (∀ T, docTypeParseStr S = .ok T → ∃ f, hostParseStr S s = some (.ok (T, f)) ∧
      f.getLsbD 1 = isUpper (T.getD 0 0) ∧ f.getLsbD 2 = isUpper (T.getD 1 0) ∧
      f.getLsbD 3 = isUpper (T.getD 2 0) ∧ f.getLsbD 4 = isLower (T.getD 3 0) ∧
      f.getLsbD 5 = isUpper (T.getD 2 0)) ∧
    (∀ e, docTypeParseStr S = .error e → hostParseStr S s = some (.error e.code))

/-! ### The read port and the derived values -/

/-- R42, R45: what each index reads; the reserved indices and the reserved bits of STATUS and FR_FLAGS
read 0. -/
def Obligations.ReadMap : Prop :=
  ∀ s : State,
    readPort s 0x0 = statusWord s ∧ readPort s 0x5 = flagsWord s ∧
    readPort s 0x1 = s.crc_state ∧ readPort s 0x2 = s.crc_state ^^^ 0xFFFFFFFF ∧
    readPort s 0x3 = s.fr_len ∧ readPort s 0x4 = s.fr_type ∧ readPort s 0x6 = s.fr_crc_rx ∧
    readPort s 0x7 = s.fr_crc ^^^ 0xFFFFFFFF ∧
    readPort s 0x9 ++ readPort s 0x8 = s.fr_count ∧
    (∀ idx : ReadIndex, 0xA ≤ idx.toNat → readPort s idx = 0) ∧
    readPort s 0x0 &&& 0xFFF0F0E0 = 0 ∧ readPort s 0x5 &&& 0xFFFFF880 = 0

/-- R43: STATUS field by field, the reserved bits 0, and 0 after reset. -/
def Obligations.StatusFields : Prop :=
  (∀ s : State,
    ((readPort s 0x0).extractLsb' 0 2 =
      match s.fr_mode with
      | .idle => 0
      | .parse => 1
      | .compose => 2
      | .type => 3) ∧
    (readPort s 0x0).getLsbD 2 = s.fr_busy ∧ (readPort s 0x0).getLsbD 3 = s.fr_done ∧
    ((readPort s 0x0).getLsbD 4 = true ↔ s.fr_done = true ∧ s.fr_err = 0) ∧
    (readPort s 0x0).extractLsb' 5 3 = 0 ∧ (readPort s 0x0).extractLsb' 8 4 = s.fr_err ∧
    (readPort s 0x0).extractLsb' 12 4 = 0 ∧ (readPort s 0x0).getLsbD 16 = s.ill_sticky ∧
    (readPort s 0x0).getLsbD 17 = s.rej_sticky ∧ (readPort s 0x0).extractLsb' 18 2 = s.last ∧
    (readPort s 0x0).extractLsb' 20 12 = 0) ∧
  readPort State.reset 0x0 = 0

/-- R44: FR_FLAGS field by field, the reserved bits 0, and 1 after reset. -/
def Obligations.FlagsFields : Prop :=
  (∀ s : State,
    (readPort s 0x5).getLsbD 0 = lettersOk s ∧ (readPort s 0x5).getLsbD 1 = critical s ∧
    (readPort s 0x5).getLsbD 2 = publicFlag s ∧ (readPort s 0x5).getLsbD 3 = reservedValid s ∧
    (readPort s 0x5).getLsbD 4 = safeToCopy s ∧ (readPort s 0x5).getLsbD 5 = isValid s ∧
    (readPort s 0x5).getLsbD 6 = typeComplete s ∧ (readPort s 0x5).getLsbD 7 = false ∧
    ((readPort s 0x5).extractLsb' 8 3).toNat = typeRcvd s ∧ typeRcvd s ≤ 4 ∧
    (readPort s 0x5).extractLsb' 11 21 = 0) ∧
  readPort State.reset 0x5 = 1

/-- R36, R38 (and the definitions of R40): the number of type bytes received, LETTERS_OK over those bytes alone (true of
none), and is_valid. -/
def Obligations.ReceivedTypeBytesAndValidity : Prop :=
  ∀ s : State,
    (s.fr_mode = .idle → typeRcvd s = 0) ∧
    (s.fr_mode = .parse → (typeRcvd s : Int) = min 4 (max 0 ((s.fr_count.toNat : Int) - 4))) ∧
    (s.fr_mode = .compose ∨ s.fr_mode = .type → typeRcvd s = min 4 s.fr_count.toNat) ∧
    (lettersOk s = true ↔
      ∀ j < typeRcvd s, isLetter (s.fr_type.extractLsb' (24 - 8 * j) 8) = true) ∧
    (typeComplete s = true ↔ typeRcvd s = 4) ∧
    (isValid s = true ↔
      typeRcvd s = 4 ∧ lettersOk s = true ∧ isUpper (s.fr_type.extractLsb' 8 8) = true)

/-- R37 and R39: the byte predicates as ranges, none of them true of 0x00 or 0x80..0xFF; the four case
flags from the type bytes; for letters upper case is bit 5 = 0. -/
def Obligations.CaseFlagsAreRangeTests : Prop :=
  (∀ b : Byte,
    (isUpper b = true ↔ 0x41 ≤ b.toNat ∧ b.toNat ≤ 0x5A) ∧
    (isLower b = true ↔ 0x61 ≤ b.toNat ∧ b.toNat ≤ 0x7A) ∧
    (isLetter b = true ↔ isUpper b = true ∨ isLower b = true) ∧
    (b = 0x00 ∨ 0x80 ≤ b.toNat → isLetter b = false) ∧
    (isLetter b = true → isUpper b = !b.getLsbD 5)) ∧
  (∀ s : State,
    critical s = isUpper (s.fr_type.extractLsb' 24 8) ∧
    publicFlag s = isUpper (s.fr_type.extractLsb' 16 8) ∧
    reservedValid s = isUpper (s.fr_type.extractLsb' 8 8) ∧
    safeToCopy s = isLower (s.fr_type.extractLsb' 0 8))

/-- R46: every state element can be read back whole: two states that read alike at every index agree on
all 13 elements. -/
def Obligations.ReadPortShowsTheWholeState : Prop :=
  ∀ s t : State, (∀ idx : ReadIndex, readPort s idx = readPort t idx) →
    s = { t with cycles := s.cycles }

/-! ### Assembler -/

/-- R78 (derived): a line of a mnemonic, with a decimal, hexadecimal or character operand for a B-form, and
a comment or none after it, assembles to the one word of its command; `.word` emits its word as it is. The
blanks, and a character literal of the quote itself, are the model's choice, log entry 6. -/
def Obligations.CommandLinesAssemble : Prop :=
  (∀ r ∈ opcodeRows, r.form = .zForm →
    assembleLine r.mnemonic.toList = some [encode (r.build 0)] ∧
    assembleLine (r.mnemonic.toList ++ " ; comment".toList) = some [encode (r.build 0)]) ∧
  (∀ r ∈ opcodeRows, r.form = .bForm → ∀ b : Byte, ∀ tail ∈ ["".toList, " ; comment".toList],
    assembleLine (r.mnemonic.toList ++ ' ' :: Nat.toDigits 10 b.toNat ++ tail) =
      some [encode (r.build b)] ∧
    assembleLine (r.mnemonic.toList ++ " 0x".toList ++ Nat.toDigits 16 b.toNat ++ tail) =
      some [encode (r.build b)] ∧
    (b.toNat < 128 →
      assembleLine (r.mnemonic.toList ++ [' ', '\'', Char.ofNat b.toNat, '\''] ++ tail) =
        some [encode (r.build b)])) ∧
  (∀ v : Word, assembleLine (".word 0x".toList ++ Nat.toDigits 16 v.toNat) = some [v])

/-- R79 (derived): `FR.WORD32 v` at the start of a PARSE session feeds the length field, so FR_LEN reads
`v`; `CRC.WORD32 v` and `CRC.BYTES s` feed their bytes in order; a string of length 0 expands to
nothing. -/
def Obligations.PseudoInstructionsFeedBytesInOrder : Prop :=
  (∀ (v : Word) (s : State), ∃ t, execAll (.frParse :: frWord32 v) s = .next t ∧
    readPort t 0x3 = v ∧ readPort t 0x8 = 4) ∧
  (∀ (v : Word) (s : State), ∃ t, execAll (crcWord32 v) s = .next t ∧
    t = { s with crc_state := upd (upd (upd (upd s.crc_state (v.extractLsb' 24 8))
      (v.extractLsb' 16 8)) (v.extractLsb' 8 8)) (v.extractLsb' 0 8), last := 0 }) ∧
  (∀ (S : List Byte) (s : State), ∃ t, execAll (crcBytes S) s = .next t ∧
    t.crc_state = S.foldl upd s.crc_state) ∧
  crcBytes [] = [] ∧ frBytes [] = []
end

