-- ==== Sys2Proof/Laws/Bytes.lean ====
section
/-! SUPPORT. The laws of the byte operations: big-endian packing and its inverse, and the four bytes of
a type word. -/

namespace Sys2Proof.Machine

@[simp] theorem be32_length (x : Word) : (be32 x).length = 4 := rfl

@[simp] theorem le32_length (x : Word) : (le32 x).length = 4 := rfl

@[simp] theorem beVal_nil : beVal [] = 0 := rfl

@[simp] theorem beVal_snoc (S : List Byte) (b : Byte) : beVal (S ++ [b]) = shiftInByte (beVal S) b := by
  simp [beVal]

/-- Bit by bit, `shiftInByte` puts the byte in bits 7:0 and moves the rest up by 8. -/
theorem shiftInByte_getElem (v : Word) (b : Byte) (k : Nat) (hk : k < 32) :
    (shiftInByte v b)[k] = if h : k < 8 then b[k] else v[k - 8] := by
  by_cases h : k < 8
  · simp [shiftInByte, h]
  · have : 8 ≤ k := Nat.le_of_not_lt h
    simp [shiftInByte, h, BitVec.getLsbD_of_ge b k this]

/-- `beVal` is the inverse of `be32` (R9). -/
@[simp] theorem beVal_be32 (x : Word) : beVal (be32 x) = x := by
  have e : beVal (be32 x) = shiftInByte (shiftInByte (shiftInByte (shiftInByte 0
      (x.extractLsb' 24 8)) (x.extractLsb' 16 8)) (x.extractLsb' 8 8)) (x.extractLsb' 0 8) := rfl
  rw [e]
  ext k hk
  interval_cases k <;> simp [shiftInByte_getElem]

/-- `be32` is the inverse of `beVal` on four bytes (R9). -/
theorem be32_beVal (a b c d : Byte) : be32 (beVal [a, b, c, d]) = [a, b, c, d] := by
  have e : beVal [a, b, c, d] = shiftInByte (shiftInByte (shiftInByte (shiftInByte 0 a) b) c) d := rfl
  simp only [be32, e, List.cons.injEq, and_true]
  refine ⟨?_, ?_, ?_, ?_⟩ <;>
  · ext k hk
    interval_cases k <;> simp [shiftInByte_getElem]

/-- `be32` is the inverse of `beVal` on every sequence of four bytes (R9). -/
theorem be32_beVal_of_length {S : List Byte} (h : S.length = 4) : be32 (beVal S) = S := by
  match S, h with
  | [a, b, c, d], _ => exact be32_beVal a b c d

/-- The bytes of a type word are its big-endian bytes. -/
theorem typeByte_eq_be32 (t : Word) (j : Nat) : typeByte t j = (be32 t).getD j 0 := by
  match j with
  | 0 => rfl
  | 1 => rfl
  | 2 => rfl
  | 3 => rfl
  | j + 4 => simp [typeByte, be32]

/-- Type byte `j` by its bits [31-8j : 24-8j] (R28). -/
theorem typeByte_eq_extract (t : Word) {j : Nat} (h : j < 4) :
    typeByte t j = t.extractLsb' (24 - 8 * j) 8 := by
  interval_cases j <;> rfl

/-- Writing type byte `i` writes it and leaves the other three (R126). -/
theorem typeByte_setTypeByte (t : Word) (i j : Nat) (b : Byte) (hi : i < 4) (hj : j < 4) :
    typeByte (setTypeByte t i b) j = if j = i then b else typeByte t j := by
  interval_cases i <;> interval_cases j <;>
  · ext k hk
    interval_cases k <;> simp [typeByte, setTypeByte]

/-- A type word is its four type bytes. -/
theorem eq_of_typeByte_eq {t u : Word} (h : ∀ j < 4, typeByte t j = typeByte u j) : t = u := by
  have e : be32 t = be32 u := by
    have h0 := h 0 (by decide)
    have h1 := h 1 (by decide)
    have h2 := h 2 (by decide)
    have h3 := h 3 (by decide)
    simp only [typeByte] at h0 h1 h2 h3
    simp [be32, h0, h1, h2, h3]
  rw [← beVal_be32 t, e, beVal_be32]

/-- There is no type byte past byte 3. -/
@[simp] theorem typeByte_of_ge (t : Word) {j : Nat} (h : 4 ≤ j) : typeByte t j = 0 := by
  match j, h with
  | j + 4, _ => rfl

/-- Every byte of the cleared type word is 0x00 (R28). -/
@[simp] theorem typeByte_zero (j : Nat) : typeByte 0#32 j = 0#8 := by
  match j with
  | 0 => rfl
  | 1 => rfl
  | 2 => rfl
  | 3 => rfl
  | j + 4 => rfl

/-- The slice counter goes up by one and saturates (R26). -/
@[simp] theorem incCount_toNat (c : Count) :
    (incCount c).toNat = min (c.toNat + 1) (2 ^ 64 - 1) := by
  simp only [incCount, BitVec.toNat_ofNat]
  exact Nat.mod_eq_of_lt (by omega)

end Sys2Proof.Machine
end

