-- ==== Sys2Proof/Laws/Crc.lean ====
section
/-! SUPPORT. The laws of the byte update (41_crc.md rules R101 to R103): it is linear over exclusive-or,
injective in the register and in the byte, and splits in the shifted register and a table entry. -/

namespace Sys2Proof.Machine

theorem crcBit_xor (a b : Word) : crcBit (a ^^^ b) = crcBit a ^^^ crcBit b := by
  unfold crcBit
  rw [BitVec.getLsbD_xor]
  cases a.getLsbD 0 <;> cases b.getLsbD 0 <;>
  · ext k hk
    simp [Bool.xor_comm, Bool.xor_left_comm]

theorem crcBits_xor (n : Nat) (a b : Word) : crcBits n (a ^^^ b) = crcBits n a ^^^ crcBits n b := by
  induction n generalizing a b with
  | zero => rfl
  | succ n ih => simp only [crcBits, crcBit_xor, ih]

@[simp] theorem crcBits_zero_word (n : Nat) : crcBits n 0 = 0 := by
  induction n with
  | zero => rfl
  | succ n ih => exact ih

/-- The byte update is linear in register and byte together. -/
theorem upd_xor (a b : Word) (x y : Byte) : upd (a ^^^ b) (x ^^^ y) = upd a x ^^^ upd b y := by
  have e : (a ^^^ b) ^^^ (x ^^^ y).setWidth 32 = (a ^^^ x.setWidth 32) ^^^ (b ^^^ y.setWidth 32) := by
    rw [BitVec.setWidth_xor]
    ac_rfl
  simp only [upd, e, crcBits_xor]

theorem upd_split (c : Word) (b : Byte) : upd c b = crcBits 8 c ^^^ upd 0 b := by
  simp [upd, crcBits_xor]

/-- Only the zero register passes to zero: bit 31 of a pass tells whether the polynomial was added. -/
theorem crcBit_eq_zero {c : Word} (h : crcBit c = 0) : c = 0 := by
  unfold crcBit at h
  split at h
  · have := congrArg (fun w : Word => w.getLsbD 31) h
    simp [crcPoly] at this
  · rename_i h0
    apply BitVec.eq_of_getLsbD_eq
    intro k hk
    cases k with
    | zero => simpa using h0
    | succ k =>
      have := congrArg (fun w : Word => w.getLsbD k) h
      simp only [BitVec.getLsbD_ushiftRight] at this
      rw [Nat.add_comm]
      simpa using this

theorem crcBits_eq_zero {n : Nat} {c : Word} (h : crcBits n c = 0) : c = 0 := by
  induction n generalizing c with
  | zero => exact h
  | succ n ih => exact crcBit_eq_zero (ih h)

theorem crcBits_injective {n : Nat} {a b : Word} (h : crcBits n a = crcBits n b) : a = b := by
  have : crcBits n (a ^^^ b) = 0 := by
    rw [crcBits_xor, h, BitVec.xor_self]
    rfl
  exact BitVec.xor_eq_zero_iff.mp (crcBits_eq_zero this)

/-- Different registers stay different under the same byte. -/
theorem upd_left_injective {c d : Word} {b : Byte} (h : upd c b = upd d b) : c = d :=
  (BitVec.xor_left_inj _).mp (crcBits_injective h)

/-- Different bytes give different registers. -/
theorem upd_right_injective {c : Word} {x y : Byte} (h : upd c x = upd c y) : x = y := by
  have e := (BitVec.xor_right_inj _).mp (crcBits_injective h)
  have := congrArg (BitVec.setWidth 8) e
  simpa using this

theorem rawFrom_append (c : Word) (x y : List Byte) : rawFrom c (x ++ y) = rawFrom (rawFrom c x) y := by
  simp [rawFrom]

@[simp] theorem rawFrom_nil (c : Word) : rawFrom c [] = c := rfl

@[simp] theorem rawFrom_cons (c : Word) (b : Byte) (s : List Byte) :
    rawFrom c (b :: s) = rawFrom (upd c b) s := rfl

@[simp] theorem raw_nil : raw [] = crcInitial := rfl

@[simp] theorem raw_snoc (S : List Byte) (b : Byte) : raw (S ++ [b]) = upd (raw S) b := by
  simp [raw, rawFrom]

/-- Different registers stay different under the same message. -/
theorem rawFrom_injective {c d : Word} {s : List Byte} (h : rawFrom c s = rawFrom d s) : c = d := by
  induction s generalizing c d with
  | nil => exact h
  | cons b s ih => exact upd_left_injective (ih h)

end Sys2Proof.Machine
end

