-- ==== Sys2Proof/Laws/Decode.lean ====
section
/-! SUPPORT. A command word as its three fields, the fields of an encoding, and which row of the opcode
map a word with given fields selects: the decoder's case split, said once. -/

namespace Sys2Proof

/-- The word with the three fields of `c`: RSV, IMM8, OP from the top (R70). -/
def wordOf (c : CommandFields) : Word :=
  (c.rsv.setWidth 32 <<< 16) ||| (c.imm8.setWidth 32 <<< 8) ||| c.op.setWidth 32

/-- The bits of a word by its fields. -/
theorem wordOf_getElem (c : CommandFields) (k : Nat) (hk : k < 32) :
    (wordOf c)[k] =
      if k < 8 then c.op.getLsbD k
      else if k < 16 then c.imm8.getLsbD (k - 8) else c.rsv.getLsbD (k - 16) := by
  by_cases h8 : k < 8
  · simp [wordOf, h8, show k < 16 by omega]
  · have hop : c.op.getLsbD k = false := BitVec.getLsbD_of_ge _ _ (by omega)
    by_cases h16 : k < 16
    · simp [wordOf, h8, h16, hop]
    · have himm : c.imm8.getLsbD (k - 8) = false := BitVec.getLsbD_of_ge _ _ (by omega)
      simp [wordOf, h8, h16, hop, himm]

/-- A word is its three fields (R70). -/
theorem wordOf_fieldsOf (w : Word) : wordOf (fieldsOf w) = w := by
  ext k hk
  rw [wordOf_getElem]
  simp only [fieldsOf, opField, immField, rsvField, BitVec.getLsbD_extractLsb']
  split_ifs with h8 h16
  · simp [h8, hk]
  · simp [show k - 8 < 8 by omega, show 8 + (k - 8) = k by omega, hk]
  · simp [show k - 16 < 16 by omega, show 16 + (k - 16) = k by omega, hk]

/-- The fields of a word put together from fields are those fields. -/
@[simp] theorem fieldsOf_wordOf (c : CommandFields) : fieldsOf (wordOf c) = c := by
  obtain ⟨op, imm, rsv⟩ := c
  rw [fieldsOf, CommandFields.mk.injEq]
  refine ⟨?_, ?_, ?_⟩ <;> ext k hk <;>
    rw [← BitVec.getLsbD_eq_getElem, ← BitVec.getLsbD_eq_getElem]
  · simp only [opField, BitVec.getLsbD_extractLsb', hk, decide_true, Bool.true_and]
    rw [BitVec.getLsbD_eq_getElem (by omega), wordOf_getElem, if_pos (by omega), Nat.zero_add]
  · simp only [immField, BitVec.getLsbD_extractLsb', hk, decide_true, Bool.true_and]
    rw [BitVec.getLsbD_eq_getElem (by omega), wordOf_getElem, if_neg (by omega),
      if_pos (by omega), Nat.add_sub_cancel_left]
  · simp only [rsvField, BitVec.getLsbD_extractLsb', hk, decide_true, Bool.true_and]
    rw [BitVec.getLsbD_eq_getElem (by omega), wordOf_getElem, if_neg (by omega),
      if_neg (by omega), Nat.add_sub_cancel_left]

/-- Two words with the same fields are the same word. -/
theorem eq_of_fields_eq {v w : Word} (h : fieldsOf v = fieldsOf w) : v = w := by
  rw [← wordOf_fieldsOf v, h, wordOf_fieldsOf]

/-- Words put together from fields are equal exactly when the fields are. -/
theorem wordOf_inj {c d : CommandFields} : wordOf c = wordOf d ↔ c = d := by
  constructor
  · intro h
    rw [← fieldsOf_wordOf c, h, fieldsOf_wordOf]
  · rintro rfl
    rfl

/-- The fields of an encoding: the row's OP, the operand, and RSV clear (R70, R78). -/
theorem encode_eq_wordOf (i : Instr) :
    encode i = wordOf { op := opOf i, imm8 := i.operand, rsv := 0 } := by
  simp [encode, wordOf]

/-- Masking a word masks its fields. -/
theorem wordOf_and (c d : CommandFields) :
    wordOf c &&& wordOf d =
      wordOf { op := c.op &&& d.op, imm8 := c.imm8 &&& d.imm8, rsv := c.rsv &&& d.rsv } := by
  ext k hk
  simp only [BitVec.getElem_and, wordOf_getElem]
  split_ifs <;> simp

/-- Selecting a row of the opcode map, by fields: the row's OP, RSV clear, and no operand in a Z-form
(R73, R74). -/
theorem selects_iff {r : OpRow} (hr : r ∈ opcodeRows) (w : Word) :
    r.selects w = true ↔
      opField w = r.op ∧ rsvField w = 0 ∧ (r.form = .zForm → immField w = 0) := by
  obtain ⟨c, rfl⟩ : ∃ c, w = wordOf c := ⟨fieldsOf w, (wordOf_fieldsOf w).symm⟩
  have h1 : opField (wordOf c) = c.op := congrArg CommandFields.op (fieldsOf_wordOf c)
  have h2 : rsvField (wordOf c) = c.rsv := congrArg CommandFields.rsv (fieldsOf_wordOf c)
  have h3 : immField (wordOf c) = c.imm8 := congrArg CommandFields.imm8 (fieldsOf_wordOf c)
  rw [h1, h2, h3]
  have zForm : ∀ op : Byte, (wordOf c &&& 0xFFFFFFFF = wordOf ⟨op, 0, 0⟩ ↔
      c.op = op ∧ c.rsv = 0 ∧ c.imm8 = 0) := by
    intro op
    rw [show wordOf c &&& 0xFFFFFFFF = wordOf c from BitVec.and_allOnes, wordOf_inj,
      CommandFields.ext_iff]
    exact and_congr_right fun _ => and_comm
  have bForm : ∀ op : Byte, (wordOf c &&& 0xFFFF00FF = wordOf ⟨op, 0, 0⟩ ↔
      c.op = op ∧ c.rsv = 0) := by
    intro op
    have e : wordOf c &&& 0xFFFF00FF = wordOf ⟨c.op, 0, c.rsv⟩ := by
      have m : (0xFFFF00FF : Word) = wordOf ⟨0xFF, 0x00, 0xFFFF⟩ := by decide
      rw [m, wordOf_and, wordOf_inj, CommandFields.mk.injEq]
      exact ⟨BitVec.and_allOnes, BitVec.and_zero, BitVec.and_allOnes⟩
    rw [e, wordOf_inj, CommandFields.ext_iff]
    simp
  simp only [opcodeRows, List.mem_cons, List.not_mem_nil, or_false] at hr
  rcases hr with rfl | rfl | rfl | rfl | rfl | rfl | rfl | rfl | rfl | rfl <;>
    simp only [OpRow.selects, beq_iff_eq, forall_const, reduceCtorEq, false_implies, and_true]
  · exact zForm 0x00
  · exact zForm 0x01
  · exact bForm 0x02
  · exact zForm 0x03
  · exact zForm 0x10
  · exact zForm 0x11
  · exact zForm 0x12
  · exact bForm 0x13
  · exact zForm 0x14
  · exact zForm 0x15

end Sys2Proof
end

