-- ==== Sys2Proof/Laws/Flags.lean ====
section
/-! SUPPORT. The bits of the two field constructors of the read words STATUS and FR_FLAGS, and the
bounds of the derived values. -/

namespace Sys2Proof.Machine

/-- A field shows its bits from its lowest bit up and 0 elsewhere. -/
@[simp] theorem fieldAt_getElem {w : Nat} (n : Nat) (v : BitVec w) (k : Nat) (hk : k < 32) :
    (fieldAt n v)[k] = (decide (n ≤ k) && v.getLsbD (k - n)) := by
  by_cases h : k < n
  · simp [fieldAt, h]
  · simp [fieldAt, h, Nat.le_of_not_lt h]

/-- A one-bit field shows its flag at its own bit and 0 elsewhere. -/
@[simp] theorem bitAt_getElem (n : Nat) (b : Bool) (k : Nat) (hk : k < 32) :
    (bitAt n b)[k] = (decide (k = n) && b) := by
  have e : (decide (n ≤ k) && decide (k - n = 0)) = decide (k = n) := by
    rw [← Bool.decide_and, decide_eq_decide]
    omega
  rw [← e, bitAt, fieldAt_getElem, BitVec.getLsbD_ofBool, Bool.and_assoc]

/-- `type_rcvd` is 0..4 (R36). -/
theorem typeRcvd_le (s : State) : typeRcvd s ≤ 4 := by
  unfold typeRcvd
  split <;> omega

/-- `letters_ok` as a statement about each received byte (R38). -/
theorem lettersOk_iff (s : State) :
    lettersOk s = true ↔ ∀ j < typeRcvd s, isLetter (typeByte s.fr_type j) = true := by
  simp [lettersOk]

/-- The codes of the modes are all different, so STATUS.MODE tells the mode (R22, R46). -/
theorem Mode.code_injective {m m' : Mode} (h : m.code = m'.code) : m = m' := by
  cases m <;> cases m' <;> first | rfl | exact absurd h (by decide)

end Sys2Proof.Machine
end

