-- ==== Sys2Proof/Laws/State.lean ====
section
/-! SUPPORT. One lemma per field for each named update of State: consuming the current pins, clearing the
framer's data, and the reset edge. Each holds by rfl, so no proof unfolds a record update. -/

namespace Sys2Proof.Machine

@[simp] theorem State.popPins_crc_state (s : State) : s.popPins.crc_state = s.crc_state := rfl
@[simp] theorem State.popPins_fr_mode (s : State) : s.popPins.fr_mode = s.fr_mode := rfl
@[simp] theorem State.popPins_fr_busy (s : State) : s.popPins.fr_busy = s.fr_busy := rfl
@[simp] theorem State.popPins_fr_done (s : State) : s.popPins.fr_done = s.fr_done := rfl
@[simp] theorem State.popPins_fr_err (s : State) : s.popPins.fr_err = s.fr_err := rfl
@[simp] theorem State.popPins_fr_count (s : State) : s.popPins.fr_count = s.fr_count := rfl
@[simp] theorem State.popPins_fr_len (s : State) : s.popPins.fr_len = s.fr_len := rfl
@[simp] theorem State.popPins_fr_type (s : State) : s.popPins.fr_type = s.fr_type := rfl
@[simp] theorem State.popPins_fr_crc (s : State) : s.popPins.fr_crc = s.fr_crc := rfl
@[simp] theorem State.popPins_fr_crc_rx (s : State) : s.popPins.fr_crc_rx = s.fr_crc_rx := rfl
@[simp] theorem State.popPins_ill_sticky (s : State) : s.popPins.ill_sticky = s.ill_sticky := rfl
@[simp] theorem State.popPins_rej_sticky (s : State) : s.popPins.rej_sticky = s.rej_sticky := rfl
@[simp] theorem State.popPins_last (s : State) : s.popPins.last = s.last := rfl
@[simp] theorem State.popPins_cycles (s : State) : s.popPins.cycles = s.cycles.tail := rfl

@[simp] theorem clearFramerData_crc_state (s : State) : (clearFramerData s).crc_state = s.crc_state := rfl
@[simp] theorem clearFramerData_fr_mode (s : State) : (clearFramerData s).fr_mode = s.fr_mode := rfl
@[simp] theorem clearFramerData_fr_busy (s : State) : (clearFramerData s).fr_busy = s.fr_busy := rfl
@[simp] theorem clearFramerData_fr_done (s : State) : (clearFramerData s).fr_done = s.fr_done := rfl
@[simp] theorem clearFramerData_fr_err (s : State) : (clearFramerData s).fr_err = s.fr_err := rfl
@[simp] theorem clearFramerData_fr_count (s : State) : (clearFramerData s).fr_count = 0 := rfl
@[simp] theorem clearFramerData_fr_len (s : State) : (clearFramerData s).fr_len = 0 := rfl
@[simp] theorem clearFramerData_fr_type (s : State) : (clearFramerData s).fr_type = 0 := rfl
@[simp] theorem clearFramerData_fr_crc (s : State) : (clearFramerData s).fr_crc = crcInitial := rfl
@[simp] theorem clearFramerData_fr_crc_rx (s : State) : (clearFramerData s).fr_crc_rx = 0 := rfl
@[simp] theorem clearFramerData_ill_sticky (s : State) : (clearFramerData s).ill_sticky = s.ill_sticky := rfl
@[simp] theorem clearFramerData_rej_sticky (s : State) : (clearFramerData s).rej_sticky = s.rej_sticky := rfl
@[simp] theorem clearFramerData_last (s : State) : (clearFramerData s).last = s.last := rfl
@[simp] theorem clearFramerData_cycles (s : State) : (clearFramerData s).cycles = s.cycles := rfl

@[simp] theorem resetEdge_crc_state (s : State) : (resetEdge s).crc_state = State.reset.crc_state := rfl
@[simp] theorem resetEdge_fr_mode (s : State) : (resetEdge s).fr_mode = State.reset.fr_mode := rfl
@[simp] theorem resetEdge_fr_busy (s : State) : (resetEdge s).fr_busy = State.reset.fr_busy := rfl
@[simp] theorem resetEdge_fr_done (s : State) : (resetEdge s).fr_done = State.reset.fr_done := rfl
@[simp] theorem resetEdge_fr_err (s : State) : (resetEdge s).fr_err = State.reset.fr_err := rfl
@[simp] theorem resetEdge_fr_count (s : State) : (resetEdge s).fr_count = State.reset.fr_count := rfl
@[simp] theorem resetEdge_fr_len (s : State) : (resetEdge s).fr_len = State.reset.fr_len := rfl
@[simp] theorem resetEdge_fr_type (s : State) : (resetEdge s).fr_type = State.reset.fr_type := rfl
@[simp] theorem resetEdge_fr_crc (s : State) : (resetEdge s).fr_crc = State.reset.fr_crc := rfl
@[simp] theorem resetEdge_fr_crc_rx (s : State) : (resetEdge s).fr_crc_rx = State.reset.fr_crc_rx := rfl
@[simp] theorem resetEdge_ill_sticky (s : State) : (resetEdge s).ill_sticky = State.reset.ill_sticky := rfl
@[simp] theorem resetEdge_rej_sticky (s : State) : (resetEdge s).rej_sticky = State.reset.rej_sticky := rfl
@[simp] theorem resetEdge_last (s : State) : (resetEdge s).last = State.reset.last := rfl
@[simp] theorem resetEdge_cycles (s : State) : (resetEdge s).cycles = s.cycles := rfl

end Sys2Proof.Machine
end

