-- ==== Sys2Proof/Laws/Ops.lean ====
section
/-! SUPPORT. What the shared operations and the meanings answer, once each: every one answers a next
state, and these lemmas say which. Later proofs cite them and unfold no meaning. -/

namespace Sys2Proof.Machine

@[simp] theorem accept_eq (s : State) : accept s = .next { s with last := 0 } := rfl

@[simp] theorem reject_eq (s : State) : reject s = .next { s with rej_sticky := true, last := 2 } := rfl

@[simp] theorem illegalWord_eq (s : State) :
    illegalWord s = .next { s with ill_sticky := true, last := 1 } := rfl

/-- An absorbed byte writes only the four data elements. -/
theorem absorb_frame (i : Nat) (b : Byte) (s : State) :
    absorb i b s = { s with
      fr_len := (absorb i b s).fr_len, fr_type := (absorb i b s).fr_type,
      fr_crc := (absorb i b s).fr_crc, fr_crc_rx := (absorb i b s).fr_crc_rx } := by
  unfold absorb absorbP absorbC absorbT
  split <;> (repeat' split) <;> rfl

/-- FR.BYTE in an open session: the absorbed byte, counted. -/
theorem exec_frByte_open {b : Byte} {s : State} (h : s.fr_busy = true) :
    exec (.frByte b) s = .next
      { absorb s.fr_count.toNat b s with fr_count := incCount s.fr_count, last := 0 } := by
  simp [exec, execFrByte, h]

/-- FR.BYTE with no session open. -/
theorem exec_frByte_closed {b : Byte} {s : State} (h : s.fr_busy = false) :
    exec (.frByte b) s = .next { s with rej_sticky := true, last := 2 } := by
  simp [exec, execFrByte, h]

/-- FR.END in an open session. -/
theorem exec_frEnd_open {s : State} (h : s.fr_busy = true) :
    exec .frEnd s = .next
      { s with fr_err := resolve s, fr_busy := false, fr_done := true, last := 0 } := by
  simp [exec, execFrEnd, h]

/-- FR.END with no session open. -/
theorem exec_frEnd_closed {s : State} (h : s.fr_busy = false) :
    exec .frEnd s = .next { s with rej_sticky := true, last := 2 } := by
  simp [exec, execFrEnd, h]

/-- Every command answers a next state, and leaves the host's coming cycles. -/
theorem exec_next (i : Instr) (s : State) : ∃ t, exec i s = .next t ∧ t.cycles = s.cycles := by
  cases i with
  | frByte b =>
    cases h : s.fr_busy with
    | true =>
      refine ⟨_, exec_frByte_open h, ?_⟩
      show (absorb s.fr_count.toNat b s).cycles = s.cycles
      rw [absorb_frame]
    | false => exact ⟨_, exec_frByte_closed h, rfl⟩
  | frEnd =>
    cases h : s.fr_busy with
    | true => exact ⟨_, exec_frEnd_open h, rfl⟩
    | false => exact ⟨_, exec_frEnd_closed h, rfl⟩
  | nop => exact ⟨_, rfl, rfl⟩
  | crcInit => exact ⟨_, rfl, rfl⟩
  | crcByte b => exact ⟨_, rfl, rfl⟩
  | clear => exact ⟨_, rfl, rfl⟩
  | frParse => exact ⟨_, rfl, rfl⟩
  | frCompose => exact ⟨_, rfl, rfl⟩
  | frType => exact ⟨_, rfl, rfl⟩
  | frAbort => exact ⟨_, rfl, rfl⟩

/-- Every word answers a next state, and leaves the host's coming cycles. -/
theorem stepWord_next (w : Word) (s : State) : ∃ t, stepWord w s = .next t ∧ t.cycles = s.cycles := by
  unfold stepWord
  split
  · exact ⟨_, rfl, rfl⟩
  · exact exec_next _ s

@[simp] theorem execAll_nil (s : State) : execAll [] s = .next s := rfl

/-- A sequence of commands whose first answers `t` goes on from `t`. -/
theorem execAll_cons {i : Instr} {is : List Instr} {s t : State} (h : exec i s = .next t) :
    execAll (i :: is) s = execAll is t := by
  simp [execAll, h]

/-- A sequence of commands goes on where its first part ended. -/
theorem execAll_append {is js : List Instr} {s t : State} (h : execAll is s = .next t) :
    execAll (is ++ js) s = execAll js t := by
  induction is generalizing s with
  | nil =>
    cases h
    rfl
  | cons i is ih =>
    obtain ⟨u, hu, _⟩ := exec_next i s
    rw [execAll_cons hu] at h
    rw [List.cons_append, execAll_cons hu]
    exact ih h

/-- One more command after a sequence. -/
theorem execAll_snoc {is : List Instr} {i : Instr} {s t : State} (h : execAll is s = .next t) :
    execAll (is ++ [i]) s = exec i t := by
  obtain ⟨u, hu, _⟩ := exec_next i t
  rw [execAll_append h, execAll_cons hu, hu, execAll_nil]

/-- Every sequence of commands answers a next state. -/
theorem execAll_next (is : List Instr) (s : State) : ∃ t, execAll is s = .next t := by
  induction is generalizing s with
  | nil => exact ⟨s, rfl⟩
  | cons i is ih =>
    obtain ⟨u, hu, _⟩ := exec_next i s
    rw [execAll_cons hu]
    exact ih u

end Sys2Proof.Machine
end

