-- ==== Sys2Proof/Laws/PerInstr.lean ====
section
/-! SUPPORT. The family EncodedFields: the three fields of each command's encoding are its OP, its
operand byte and zero, and the command is well-formed (30_encoding.md rules R70 to R73 and R78). -/

namespace Sys2Proof.Laws.EncodedFields

/-- The fields of the encoding of `i`, and its well-formedness. -/
def Statement (i : Instr) : Prop :=
  fieldsOf (encode i) = { op := opOf i, imm8 := i.operand, rsv := 0 } ∧ i.wellFormed = true

theorem of_wellFormed (i : Instr) (h : i.wellFormed = true) : Statement i :=
  ⟨by rw [encode_eq_wordOf, fieldsOf_wordOf], h⟩

theorem nop : Statement .nop := of_wellFormed _ rfl
theorem crcInit : Statement .crcInit := of_wellFormed _ rfl
theorem crcByte (b : Byte) : Statement (.crcByte b) := of_wellFormed _ rfl
theorem clear : Statement .clear := of_wellFormed _ rfl
theorem frParse : Statement .frParse := of_wellFormed _ rfl
theorem frCompose : Statement .frCompose := of_wellFormed _ rfl
theorem frType : Statement .frType := of_wellFormed _ rfl
theorem frByte (b : Byte) : Statement (.frByte b) := of_wellFormed _ rfl
theorem frEnd : Statement .frEnd := of_wellFormed _ rfl
theorem frAbort : Statement .frAbort := of_wellFormed _ rfl

end Sys2Proof.Laws.EncodedFields
end

