-- ==== Sys2Proof/Laws/Session.lean ====
section
/-! SUPPORT. What an open session's registers hold, as functions of the slice bytes absorbed so far, for
each of the three modes (42_framer.md rules R126 to R128), from any state before the session start. One
induction over the slice for each mode; later proofs cite the results and run no session. -/

namespace Sys2Proof.Machine

/-- The bytes of `S` at positions `a .. a+m-1`, as far as `S` reaches. -/
def window (S : List Byte) (a m : Nat) : List Byte := (S.drop a).take m

@[simp] theorem window_nil (a m : Nat) : window [] a m = [] := by simp [window]

/-- One more byte extends the window exactly when it falls in it. -/
theorem window_snoc (S : List Byte) (b : Byte) (a m : Nat) :
    window (S ++ [b]) a m =
      if a ≤ S.length ∧ S.length < a + m then window S a m ++ [b] else window S a m := by
  by_cases ha : a ≤ S.length
  · by_cases hm : S.length < a + m
    · have h : (S.drop a).length < m := by
        rw [List.length_drop]
        omega
      rw [if_pos ⟨ha, hm⟩, window, window, List.drop_append_of_le_length ha,
        List.take_of_length_le (by rw [List.length_append, List.length_singleton]; omega),
        List.take_of_length_le (by omega)]
    · have h : m ≤ (S.drop a).length := by
        rw [List.length_drop]
        omega
      rw [if_neg (fun h => hm h.2), window, window, List.drop_append_of_le_length ha,
        List.take_append_of_le_length h]
  · have h1 : (S ++ [b]).drop a = [] := by
      rw [List.drop_eq_nil_iff, List.length_append, List.length_singleton]
      omega
    have h2 : S.drop a = [] := by
      rw [List.drop_eq_nil_iff]
      omega
    rw [if_neg (fun h => ha h.1), window, window, h1, h2]

theorem window_length (S : List Byte) (a m : Nat) : (window S a m).length = min m (S.length - a) := by
  simp [window]

/-- A byte list with one more byte, read with default 0x00. -/
theorem getD_snoc (W : List Byte) (b : Byte) (j : Nat) :
    (W ++ [b]).getD j 0 = if j = W.length then b else W.getD j 0 := by
  rcases Nat.lt_trichotomy j W.length with h | h | h
  · rw [if_neg (by omega), List.getD_append _ _ _ _ h]
  · rw [if_pos h, List.getD_append_right _ _ _ _ (by omega)]
    simp [h]
  · rw [if_neg (by omega), List.getD_append_right _ _ _ _ (by omega),
      List.getD_eq_default _ _ (by simp; omega), List.getD_eq_default _ _ (by omega)]

/-- The type bytes of a word are the bytes of `W`, the ones not there reading 0x00 (R28). -/
def HoldsTypeBytes (t : Word) (W : List Byte) : Prop :=
  ∀ j < 4, typeByte t j = W.getD j 0

/-- Storing the next type byte. -/
theorem HoldsTypeBytes.snoc {t : Word} {W : List Byte} {i : Nat} (h : HoldsTypeBytes t W)
    (hi : i < 4) (hW : W.length = i) (b : Byte) : HoldsTypeBytes (setTypeByte t i b) (W ++ [b]) := by
  intro j hj
  rw [typeByte_setTypeByte _ _ _ _ hi hj, getD_snoc, hW, h j hj]

/-- Four held type bytes are the type word's big-endian bytes. -/
theorem HoldsTypeBytes.be32 {t : Word} {W : List Byte} (h : HoldsTypeBytes t W) (hW : W.length = 4) :
    Machine.be32 t = W := by
  match W, hW with
  | [a, b, c, d], _ =>
    have h0 := h 0 (by decide)
    have h1 := h 1 (by decide)
    have h2 := h 2 (by decide)
    have h3 := h 3 (by decide)
    simp only [typeByte] at h0 h1 h2 h3
    simp [Machine.be32, h0, h1, h2, h3]

/-- What an open session on the bytes `S` leaves outside its data registers. -/
structure OpenOn (m : Mode) (S : List Byte) (s t : State) : Prop where
  isOpen : t.isOpen m
  err : t.fr_err = errNone
  count : t.fr_count.toNat = min S.length (2 ^ 64 - 1)
  crc_state : t.crc_state = s.crc_state
  ill : t.ill_sticky = s.ill_sticky
  rej : t.rej_sticky = s.rej_sticky
  cycles : t.cycles = s.cycles

/-- One FR.BYTE of an open session: the absorbed byte, counted, everything else of `OpenOn` kept. -/
theorem OpenOn.step {m : Mode} {S : List Byte} {s t : State} (h : OpenOn m S s t) (b : Byte) :
    ∃ u, exec (.frByte b) t = .next u ∧ OpenOn m (S ++ [b]) s u ∧
      u.fr_len = (absorb (min S.length (2 ^ 64 - 1)) b t).fr_len ∧
      u.fr_type = (absorb (min S.length (2 ^ 64 - 1)) b t).fr_type ∧
      u.fr_crc = (absorb (min S.length (2 ^ 64 - 1)) b t).fr_crc ∧
      u.fr_crc_rx = (absorb (min S.length (2 ^ 64 - 1)) b t).fr_crc_rx := by
  obtain ⟨hm, hmode, hbusy, hdone⟩ := h.isOpen
  refine ⟨_, exec_frByte_open hbusy, ?_, by rw [h.count], by rw [h.count], by rw [h.count],
    by rw [h.count]⟩
  have hc := h.count
  rw [absorb_frame]
  refine ⟨⟨hm, hmode, hbusy, hdone⟩, h.err, ?_, h.crc_state, h.ill, h.rej, h.cycles⟩
  simp only [incCount_toNat, List.length_append, List.length_singleton]
  omega

/-- What a PARSE session's registers hold after the slice bytes `S` (R127). -/
structure ParsedSoFar (S : List Byte) (s t : State) : Prop extends OpenOn .parse S s t where
  len : t.fr_len = beVal (window S 0 4)
  type : HoldsTypeBytes t.fr_type (window S 4 4)
  crc : t.fr_crc = raw (window S 4 (4 + (beVal (window S 0 4)).toNat))
  crc_rx : t.fr_crc_rx = beVal (window S (8 + (beVal (window S 0 4)).toNat) 4)

/-- What a COMPOSE session's registers hold after the slice bytes `S` (R128). -/
structure ComposedSoFar (S : List Byte) (s t : State) : Prop extends OpenOn .compose S s t where
  len : t.fr_len = BitVec.ofNat 32 (S.length - 4)
  type : HoldsTypeBytes t.fr_type (window S 0 4)
  crc : t.fr_crc = raw S
  crc_rx : t.fr_crc_rx = 0

/-- What a TYPE session's registers hold after the slice bytes `S` (R126). -/
structure TypedSoFar (S : List Byte) (s t : State) : Prop extends OpenOn .type S s t where
  len : t.fr_len = 0
  type : HoldsTypeBytes t.fr_type (window S 0 4)
  crc : t.fr_crc = crcInitial
  crc_rx : t.fr_crc_rx = 0

theorem holdsTypeBytes_nil : HoldsTypeBytes 0 [] := by
  intro j _
  simp

/-- A PARSE session on any slice, from any state (R123, R127). -/
theorem parse_absorbs (S : List Byte) (s : State) :
    ∃ t, execAll (.frParse :: S.map .frByte) s = .next t ∧ ParsedSoFar S s t := by
  induction S using List.reverseRecOn with
  | nil =>
    refine ⟨_, rfl, ⟨⟨by decide, rfl, rfl, rfl⟩, rfl, rfl, rfl, rfl, rfl, rfl⟩, rfl, ?_, ?_, ?_⟩
    · simpa using holdsTypeBytes_nil
    · simp
    · simp
  | append_singleton S b ih =>
    obtain ⟨t, ht, h⟩ := ih
    obtain ⟨u, hu, ho, e1, e2, e3, e4⟩ := h.toOpenOn.step b
    refine ⟨u, ?_, ?_⟩
    · rw [List.map_append, ← List.cons_append, List.map_singleton, execAll_snoc ht, hu]
    have hmode : t.fr_mode = .parse := h.isOpen.2.1
    have hlen := h.len
    have hL := t.fr_len.isLt
    simp only [absorb, hmode] at e1 e2 e3 e4
    rcases Nat.lt_or_ge S.length 4 with h4 | h4
    · -- a length byte
      have w4 : ∀ m, window S 4 m = [] := fun m =>
        List.eq_nil_of_length_eq_zero (by rw [window_length]; omega)
      have w4' : ∀ a m, 4 ≤ a → window (S ++ [b]) a m = [] := fun a m ha =>
        List.eq_nil_of_length_eq_zero (by
          rw [window_length, List.length_append, List.length_singleton]; omega)
      have wrx : ∀ a m, 4 ≤ a → window S a m = [] := fun a m ha =>
        List.eq_nil_of_length_eq_zero (by rw [window_length]; omega)
      have hi : min S.length (2 ^ 64 - 1) < 4 := by omega
      simp only [absorbP, if_pos hi] at e1 e2 e3 e4
      refine ⟨ho, ?_, ?_, ?_, ?_⟩
      · rw [e1, h.len, window_snoc, if_pos (by omega), beVal_snoc]
      · rw [e2, w4' 4 4 (by omega), ← w4 4]
        exact h.type
      · rw [e3, h.crc, w4, w4' _ _ (by omega)]
      · rw [e4, h.crc_rx, wrx _ _ (by omega), w4' _ _ (by omega)]
    · -- past the length field: the length is complete
      have hi4 : ¬ min S.length (2 ^ 64 - 1) < 4 := by omega
      have w0 : window (S ++ [b]) 0 4 = window S 0 4 := by rw [window_snoc, if_neg (by omega)]
      simp only [absorbP, if_neg hi4] at e1 e2 e3 e4
      have tail : ∀ {v : State}, u.fr_len = v.fr_len → u.fr_type = v.fr_type → u.fr_crc = v.fr_crc →
          u.fr_crc_rx = v.fr_crc_rx → v.fr_len = t.fr_len →
          HoldsTypeBytes v.fr_type (window (S ++ [b]) 4 4) →
          v.fr_crc = raw (window (S ++ [b]) 4 (4 + t.fr_len.toNat)) →
          v.fr_crc_rx = beVal (window (S ++ [b]) (8 + t.fr_len.toNat) 4) →
          ParsedSoFar (S ++ [b]) s u := by
        intro v c1 c2 c3 c4 d1 d2 d3 d4
        refine ⟨ho, ?_, ?_, ?_, ?_⟩
        · rw [c1, d1, hlen, w0]
        · rw [c2]
          exact d2
        · rw [c3, d3, w0, ← hlen]
        · rw [c4, d4, w0, ← hlen]
      have hcrc := h.crc
      have hrx := h.crc_rx
      rw [← hlen] at hcrc hrx
      split at e1
      · -- a type byte
        rename_i h8
        rw [if_pos h8] at e2 e3 e4
        refine tail e1 e2 e3 e4 rfl ?_ ?_ ?_
        · rw [window_snoc, if_pos (by omega)]
          have : min S.length (2 ^ 64 - 1) - 4 = S.length - 4 := by omega
          rw [this]
          exact h.type.snoc (by omega) (by rw [window_length]; omega) b
        · rw [window_snoc, if_pos (by omega), raw_snoc, hcrc]
        · rw [window_snoc, if_neg (by omega)]
          exact hrx
      · rename_i h8
        rw [if_neg h8] at e2 e3 e4
        have ty : window (S ++ [b]) 4 4 = window S 4 4 := by rw [window_snoc, if_neg (by omega)]
        split at e1
        · -- a data byte
          rename_i hd
          rw [if_pos hd] at e2 e3 e4
          refine tail e1 e2 e3 e4 rfl ?_ ?_ ?_
          · rw [ty]
            exact h.type
          · rw [window_snoc, if_pos (by omega), raw_snoc, hcrc]
          · rw [window_snoc, if_neg (by omega)]
            exact hrx
        · rename_i hd
          rw [if_neg hd] at e2 e3 e4
          have cr : window (S ++ [b]) 4 (4 + t.fr_len.toNat) = window S 4 (4 + t.fr_len.toNat) := by
            rw [window_snoc, if_neg (by omega)]
          split at e1
          · -- a byte of the CRC field
            rename_i hx
            rw [if_pos hx] at e2 e3 e4
            refine tail e1 e2 e3 e4 rfl ?_ ?_ ?_
            · rw [ty]
              exact h.type
            · rw [cr]
              exact hcrc
            · rw [window_snoc, if_pos (by omega), beVal_snoc, ← hrx]
          · -- an excess byte
            rename_i hx
            rw [if_neg hx] at e2 e3 e4
            refine tail e1 e2 e3 e4 rfl ?_ ?_ ?_
            · rw [ty]
              exact h.type
            · rw [cr]
              exact hcrc
            · rw [window_snoc, if_neg (by omega)]
              exact hrx

/-- A COMPOSE session on any slice, from any state (R124, R128). -/
theorem compose_absorbs (S : List Byte) (s : State) :
    ∃ t, execAll (.frCompose :: S.map .frByte) s = .next t ∧ ComposedSoFar S s t := by
  induction S using List.reverseRecOn with
  | nil =>
    refine ⟨_, rfl, ⟨⟨by decide, rfl, rfl, rfl⟩, rfl, rfl, rfl, rfl, rfl, rfl⟩, rfl, ?_, rfl, rfl⟩
    simpa using holdsTypeBytes_nil
  | append_singleton S b ih =>
    obtain ⟨t, ht, h⟩ := ih
    obtain ⟨u, hu, ho, e1, e2, e3, e4⟩ := h.toOpenOn.step b
    refine ⟨u, ?_, ?_⟩
    · rw [List.map_append, ← List.cons_append, List.map_singleton, execAll_snoc ht, hu]
    have hmode : t.fr_mode = .compose := h.isOpen.2.1
    simp only [absorb, hmode, absorbC] at e1 e2 e3 e4
    rcases Nat.lt_or_ge S.length 4 with h4 | h4
    · have hi : min S.length (2 ^ 64 - 1) = S.length := by omega
      rw [hi] at e1 e2 e3 e4
      rw [if_pos h4] at e1 e2 e3 e4
      refine ⟨ho, ?_, ?_, ?_, e4.trans h.crc_rx⟩
      · rw [e1, List.length_append, List.length_singleton,
          show S.length + 1 - 4 = S.length - 4 by omega]
        exact h.len
      · rw [e2, window_snoc, if_pos (by omega)]
        exact h.type.snoc h4 (by rw [window_length]; omega) b
      · rw [e3, raw_snoc, h.crc]
    · have hi : ¬ min S.length (2 ^ 64 - 1) < 4 := by omega
      rw [if_neg hi] at e1 e2 e3 e4
      refine ⟨ho, ?_, ?_, ?_, e4.trans h.crc_rx⟩
      · rw [e1, List.length_append, List.length_singleton, h.len,
          show S.length + 1 - 4 = S.length - 4 + 1 by omega, BitVec.ofNat_add]
        rfl
      · rw [e2, window_snoc, if_neg (by omega)]
        exact h.type
      · rw [e3, raw_snoc, h.crc]

/-- A TYPE session on any slice, from any state (R122, R126). -/
theorem type_absorbs (S : List Byte) (s : State) :
    ∃ t, execAll (.frType :: S.map .frByte) s = .next t ∧ TypedSoFar S s t := by
  induction S using List.reverseRecOn with
  | nil =>
    refine ⟨_, rfl, ⟨⟨by decide, rfl, rfl, rfl⟩, rfl, rfl, rfl, rfl, rfl, rfl⟩, rfl, ?_, rfl, rfl⟩
    simpa using holdsTypeBytes_nil
  | append_singleton S b ih =>
    obtain ⟨t, ht, h⟩ := ih
    obtain ⟨u, hu, ho, e1, e2, e3, e4⟩ := h.toOpenOn.step b
    refine ⟨u, ?_, ?_⟩
    · rw [List.map_append, ← List.cons_append, List.map_singleton, execAll_snoc ht, hu]
    have hmode : t.fr_mode = .type := h.isOpen.2.1
    simp only [absorb, hmode, absorbT] at e1 e2 e3 e4
    rcases Nat.lt_or_ge S.length 4 with h4 | h4
    · have hi : min S.length (2 ^ 64 - 1) = S.length := by omega
      rw [hi] at e1 e2 e3 e4
      rw [if_pos h4] at e1 e2 e3 e4
      refine ⟨ho, e1.trans h.len, ?_, e3.trans h.crc, e4.trans h.crc_rx⟩
      rw [e2, window_snoc, if_pos (by omega)]
      exact h.type.snoc h4 (by rw [window_length]; omega) b
    · have hi : ¬ min S.length (2 ^ 64 - 1) < 4 := by omega
      rw [if_neg hi] at e1 e2 e3 e4
      refine ⟨ho, e1.trans h.len, ?_, e3.trans h.crc, e4.trans h.crc_rx⟩
      rw [e2, window_snoc, if_neg (by omega)]
      exact h.type

/-- The state after FR.END of an open session `u`. -/
def closed (u : State) : State :=
  { u with fr_err := resolve u, fr_busy := false, fr_done := true, last := 0 }

/-- A whole PARSE session on any slice, from any state. -/
theorem parseSession_answers (S : List Byte) (s : State) :
    ∃ u, ParsedSoFar S s u ∧ execAll (parseSession S) s = .next (closed u) := by
  obtain ⟨u, hu, h⟩ := parse_absorbs S s
  refine ⟨u, h, ?_⟩
  rw [parseSession, session, ← List.cons_append, execAll_snoc hu, exec_frEnd_open h.isOpen.2.2.1,
    closed]

/-- A whole COMPOSE session on any slice, from any state. -/
theorem composeSession_answers (S : List Byte) (s : State) :
    ∃ u, ComposedSoFar S s u ∧ execAll (composeSession S) s = .next (closed u) := by
  obtain ⟨u, hu, h⟩ := compose_absorbs S s
  refine ⟨u, h, ?_⟩
  rw [composeSession, session, ← List.cons_append, execAll_snoc hu,
    exec_frEnd_open h.isOpen.2.2.1, closed]

/-- A whole TYPE session on any slice, from any state. -/
theorem typeSession_answers (S : List Byte) (s : State) :
    ∃ u, TypedSoFar S s u ∧ execAll (typeSession S) s = .next (closed u) := by
  obtain ⟨u, hu, h⟩ := type_absorbs S s
  refine ⟨u, h, ?_⟩
  rw [typeSession, session, ← List.cons_append, execAll_snoc hu, exec_frEnd_open h.isOpen.2.2.1,
    closed]

/-- LETTERS_OK over the received bytes, as a test of the bytes themselves (R38). -/
theorem lettersOk_eq_all {u : State} {W : List Byte} (h : HoldsTypeBytes u.fr_type W)
    (hr : typeRcvd u = W.length) : lettersOk u = W.all isLetter := by
  have h4 := typeRcvd_le u
  rw [Bool.eq_iff_iff, lettersOk_iff, List.all_eq_true]
  constructor
  · intro hall x hx
    obtain ⟨j, hj, rfl⟩ := List.mem_iff_getElem.mp hx
    have := hall j (by omega)
    rwa [h j (by omega), List.getD_eq_getElem _ _ hj] at this
  · intro hall j hj
    have hj' : j < W.length := by omega
    rw [h j (by omega), List.getD_eq_getElem _ _ hj']
    exact hall _ (List.getElem_mem hj')

end Sys2Proof.Machine
end

