-- ==== Sys2Proof/Tests/Slice0.lean ====
section
/-! SUPPORT. The model's own tests: ill-formed fields refused, every command decoded from a word written
out from the opcode map, one or two one-step tests for each command with results from the spec's own
tables (95_test_vectors.md, the rules' corner cases), and for every statement with hypotheses a state and
operands that meet them. -/

namespace Sys2Proof.Machine.Tests

/-! ### Well-formedness: each check refuses an ill-formed term (R70, R71) -/

theorem test_rsv_not_zero_is_refused :
    (CommandFields.mk 0x02 0x41 0x0001).rsvClear = false ∧
      (CommandFields.mk 0x02 0x41 0x0001).wellFormedAs .bForm = false := by decide

theorem test_z_form_with_operand_is_refused :
    (CommandFields.mk 0x14 0x01 0x0000).operandAllowed .zForm = false ∧
      (CommandFields.mk 0x14 0x01 0x0000).wellFormedAs .zForm = false := by decide

theorem test_well_formed_fields_pass :
    (CommandFields.mk 0x13 0xFF 0x0000).wellFormedAs .bForm = true ∧
      (CommandFields.mk 0x14 0x00 0x0000).wellFormedAs .zForm = true := by decide

/-! ### Decoding: words written bit by bit from R73's rows (RSV, IMM8, OP) and from §2.1 -/

theorem test_decode_nop : decode 0b00000000000000000000000000000000 = .ok .nop := by decide
theorem test_decode_crcInit : decode 0b00000000000000000000000000000001 = .ok .crcInit := by decide
theorem test_decode_crcByte : decode 0b00000000000000001010010100000010 = .ok (.crcByte 0xA5) := by decide
theorem test_decode_clear : decode 0b00000000000000000000000000000011 = .ok .clear := by decide
theorem test_decode_frParse : decode 0b00000000000000000000000000010000 = .ok .frParse := by decide
theorem test_decode_frCompose : decode 0b00000000000000000000000000010001 = .ok .frCompose := by decide
theorem test_decode_frType : decode 0b00000000000000000000000000010010 = .ok .frType := by decide
theorem test_decode_frByte : decode 0b00000000000000001000000100010011 = .ok (.frByte 0x81) := by decide
theorem test_decode_frEnd : decode 0b00000000000000000000000000010100 = .ok .frEnd := by decide
theorem test_decode_frAbort : decode 0b00000000000000000000000000010101 = .ok .frAbort := by decide

theorem test_decode_illegal_words :
    decode 0x00000100 = .error .zFormOperand ∧ decode 0x00010000 = .error .reservedBits ∧
      decode 0x0000000F = .error .reservedOp ∧ decode 0x00000016 = .error .reservedOp ∧
      decode 0x000000FF = .error .reservedOp ∧ decode 0x80000001 = .error .reservedBits := by decide

theorem test_decodeTableWord :
    decodeTableWord 32 0x00004113 = some (.frByte 0x41) ∧ decodeTableWord 8 0x14 = some .frEnd ∧
      decodeTableWord 32 0x00010013 = none := by decide

/-! ### One step: a word offered right after reset (§2.1, R92, R93) -/

/-- STATUS after the first step with `w` offered, from `s`. -/
def statusAfter (w : Nat) (s : State) : Option Word :=
  match step (s.withFetchWord 32 w) with
  | .next t => some (readPort t 0x0)
  | .fault _ => none
  | .refused _ => none

/-- A framer session of mode `m` that has absorbed `n` bytes. -/
def openIn (m : Mode) (n : Nat) : State :=
  { State.reset with fr_mode := m, fr_busy := true, fr_count := BitVec.ofNat 64 n }

/-- Both sticky bits set. -/
def sticky : State := { State.reset with ill_sticky := true, rej_sticky := true, last := 2 }

theorem test_illegal_word : statusAfter 0x00000004 State.reset = some 0x00050000 := by decide
theorem test_illegal_frByte_is_not_rejected :
    statusAfter 0x00014113 State.reset = some 0x00050000 := by decide
theorem test_nop_keeps_the_sticky_bits : statusAfter 0x00000000 sticky = some 0x00030000 := by decide
theorem test_clear : statusAfter 0x00000003 sticky = some 0x00000000 := by decide
theorem test_frParse_starts : statusAfter 0x00000010 sticky = some 0x00030005 := by decide
theorem test_frCompose_starts : statusAfter 0x00000011 State.reset = some 0x00000006 := by decide
theorem test_frType_starts : statusAfter 0x00000012 State.reset = some 0x00000007 := by decide
theorem test_frByte_rejected : statusAfter 0x0000FF13 State.reset = some 0x000A0000 := by decide
theorem test_frEnd_rejected : statusAfter 0x00000014 State.reset = some 0x000A0000 := by decide
theorem test_frEnd_of_an_empty_parse_slice :
    statusAfter 0x00000014 (openIn .parse 0) = some 0x00000109 := by decide
theorem test_frAbort : statusAfter 0x00000015 (openIn .parse 5) = some 0x00000000 := by decide

/-- P10 of §2.4: 12 + L is 2^32 with L = 0xFFFFFFF4, and does not wrap. -/
theorem test_expected_total_does_not_wrap :
    resolveP { openIn .parse 0 with fr_len := 0xFFFFFFF4 } = 1 ∧
      resolveP { openIn .parse 12 with fr_len := 0xFFFFFFF4 } = 2 := by decide

/-- §2.5: a COMPOSE session with FR_COUNT = 2^32 + 4 ends with STATUS = 0x0000060A. -/
theorem test_data_too_long :
    statusAfter 0x00000014 { openIn .compose (2 ^ 32 + 4) with fr_type := 0x41424344 } =
      some 0x0000060A := by decide

theorem test_count_saturates : incCount 0xFFFFFFFFFFFFFFFF = 0xFFFFFFFFFFFFFFFF := by decide

/-- R105: CRC.BYTE 0x61 from reset. -/
theorem test_crcByte : ∃ t, step (State.reset.withFetchWord 32 0x00006102) = .next t ∧
    readPort t 0x1 = 0x174841BC ∧ readPort t 0x2 = 0xE8B7BE43 :=
  ⟨_, rfl, by decide +kernel, by decide +kernel⟩

/-- R104: CRC.INIT after bytes. -/
theorem test_crcInit : ∃ t, exec .crcInit { State.reset with crc_state := 0x174841BC } = .next t ∧
    readPort t 0x1 = 0xFFFFFFFF ∧ readPort t 0x2 = 0x00000000 := ⟨_, rfl, by decide, by decide⟩

/-- R127: the fourth length byte of a PARSE slice. -/
theorem test_frByte_shifts_the_length_big_endian :
    ∃ t, exec (.frByte 0x0D) { openIn .parse 3 with fr_len := 0x00010200 } = .next t ∧
      readPort t 0x3 = 0x0102000D ∧ readPort t 0x8 = 4 := ⟨_, rfl, by decide, by decide⟩

/-- §2.2: the check value of R100. -/
theorem test_crc_check_value :
    crc32 [0x31, 0x32, 0x33, 0x34, 0x35, 0x36, 0x37, 0x38, 0x39] = 0xCBF43926 := by decide +kernel

/-- R139 step 1 (E12). -/
theorem test_png_signature_is_checked :
    hostPngFromBytes [137, 80, 78, 71, 13, 10, 26] State.reset = some .invalidSignature := by decide

/-- R78, R79: lines of the spec's programs. -/
theorem test_assembler_lines :
    assembleLine "FR.WORD32 0xAE426082".toList =
        some [0x0000AE13, 0x00004213, 0x00006013, 0x00008213] ∧
      assembleLine "CRC.BYTES \"a;b\" ; a comment".toList =
        some [0x00006102, 0x00003B02, 0x00006202] ∧
      assembleLine ".word 0x00010013".toList = some [0x00010013] ∧
      assembleLine "FR.BYTE ''' ; the quote itself".toList = some [0x00002713] ∧
      assembleLine "FR.BYTE ';'".toList = some [0x00003B13] ∧
      assembleLine "FR.BYTE 256".toList = none ∧ assembleLine "NOP 0".toList = none := by
  decide +kernel

theorem test_assembler_byte_list :
    assembleLine ("FR.BYTES ".toList ++ openBrace :: "0x89, 0x50".toList ++ [closeBrace]) =
      some [0x00008913, 0x00005013] := by decide +kernel

/-! ### Witnesses: states and operands that meet the hypotheses of the statements -/

/-- A state whose current pins offer `w`. -/
def offering (w : Word) : State := { State.reset with cycles := [PortIn.offer w] }

theorem witness_StepRunsTheDecodedCommand :
    ((offering 0x00004113).pins.rst = false ∧ (offering 0x00004113).pins.cmd_valid = true ∧
      decode (offering 0x00004113).pins.cmd_data = .ok (.frByte 0x41) ∧
      (offering 0x00004113).pins.cmd_data = encode (.frByte 0x41)) ∧
    ((offering 0x00000004).pins.rst = false ∧ (offering 0x00000004).pins.cmd_valid = true ∧
      decode (offering 0x00000004).pins.cmd_data = .error .reservedOp) := by decide

theorem witness_ResetEdgeSetsEveryElement :
    ({ sticky with cycles := [PortIn.resetPulse] } : State).pins.rst = true := by decide

theorem witness_OneClockCycle :
    ((offering 0).pins.cmd_valid = true ∧ (offering 0).pins.rst = false) ∧
    (State.reset.pins.cmd_valid = false ∧ State.reset.pins.rst = false) := by decide

theorem witness_OfferedWordsRunInOrder :
    ({ State.reset with cycles := [PortIn.offer 4, PortIn.offer 0, PortIn.quiet] } : State).cycles =
      [(4 : Word), 0].map PortIn.offer ++ [PortIn.quiet] := by decide

theorem witness_EveryWordHasOneOutcome :
    decode 0x00000104 = .error .reservedOp ∧ decode 0x00000014 = .ok .frEnd := by decide

theorem witness_OutcomeCodeOfEveryWord :
    (∃ t, stepWord 0x00000000 State.reset = .next t ∧ t.last = 0) ∧
    (∃ t, stepWord 0x00000004 State.reset = .next t ∧ t.last = 1) ∧
    (∃ t, stepWord 0x00000014 State.reset = .next t ∧ t.last = 2) :=
  ⟨⟨_, rfl, rfl⟩, ⟨_, rfl, rfl⟩, ⟨_, rfl, rfl⟩⟩

theorem witness_EncodeOfDecode :
    decode 0x0000FF02 = .ok (.crcByte 0xFF) ∧ decode 0x00000015 = .ok .frAbort := by decide

theorem witness_OpcodeMapRowsAreDisjoint :
    ∃ r ∈ opcodeRows, (0x0000FF13 : Word) &&& r.mask = r.matchBits :=
  ⟨⟨"FR.BYTE", 0x13, .bForm, 0x00000013, 0xFFFF00FF, fun b => .frByte b⟩, by simp [opcodeRows], by decide⟩

theorem witness_WhichWordsAreIllegal :
    (∃ e, decode 0x00000004 = .error e) ∧ (∃ e, decode 0x00010014 = .error e) ∧
      ∃ e, decode 0x0000FF14 = .error e :=
  ⟨⟨.reservedOp, by decide⟩, ⟨.reservedBits, by decide⟩, ⟨.zFormOperand, by decide⟩⟩

theorem witness_OperandIsBits15To8 :
    (decode 0x00000014 = .ok .frEnd ∧ Instr.frEnd.form = .zForm) ∧
    (decode 0x0000FF13 = .ok (.frByte 0xFF) ∧ (Instr.frByte 0xFF).form = .bForm) := by decide

theorem witness_IllegalWordSetsIllOnly :
    decode 0x00000004 = .error .reservedOp ∧
    ((0x00010013 : Word).extractLsb' 0 8 = 0x13 ∧ (0x00010013 : Word).extractLsb' 16 16 ≠ 0) ∧
    ((0x00000114 : Word).extractLsb' 0 8 = 0x14 ∧ (0x00000114 : Word).extractLsb' 8 8 ≠ 0) := by decide

theorem witness_CrcIsIncrementalAndAffine :
    ([0x61, 0x62] : List Byte).length = ([0x78, 0x79] : List Byte).length ∧
      ([0x78, 0x79] : List Byte).length = ([0x31, 0x32] : List Byte).length := by decide

theorem witness_CrcDetectsEverySingleBitError :
    ([0x61, 0x62] : List Byte)[1]? = some 0x62 ∧ 7 < 8 := by decide

theorem witness_CrcInitLoadsTheInitialValue : ∃ t, exec .crcInit sticky = .next t := ⟨_, rfl⟩

theorem witness_CrcUnitComputesCrc32 :
    ∃ t, execAll (.crcInit :: ([0x49] ++ [0x00] : List Byte).map .crcByte) State.reset = .next t :=
  ⟨_, rfl⟩

theorem witness_CrcUnitAndFramerAreIndependent :
    (∃ t, exec (.frByte 0x41) (openIn .type 0) = .next t ∧ Instr.isCrcCommand (.frByte 0x41) = false) ∧
    (∃ t, exec (.crcByte 0x41) (openIn .type 0) = .next t ∧
      Instr.isFramerCommand (.crcByte 0x41) = false) ∧
    (openIn .type 0).sameFramer { openIn .type 0 with crc_state := 0 } ∧
    (openIn .type 0).crc_state = State.reset.crc_state :=
  ⟨⟨_, rfl, rfl⟩, ⟨_, rfl, rfl⟩, ⟨rfl, rfl, rfl, rfl, rfl, rfl, rfl, rfl, rfl⟩, rfl⟩

theorem witness_SessionStartOpensAFreshSession :
    (Instr.frParse = .frParse ∧ Mode.parse = .parse) ∧
    (Instr.frCompose = .frCompose ∧ Mode.compose = .compose) ∧
    (Instr.frType = .frType ∧ Mode.type = .type) := by decide

theorem witness_FrByteIsCountedOrRejected :
    State.reset.fr_busy = false ∧
    ((openIn .parse 0).fr_busy = true ∧ (openIn .parse 0).fr_mode = .parse) ∧
    ((openIn .compose 0).fr_busy = true ∧ (openIn .compose 0).fr_mode = .compose) ∧
    ((openIn .type (2 ^ 64 - 1)).fr_busy = true ∧ (openIn .type (2 ^ 64 - 1)).fr_mode = .type) ∧
    ((openIn .idle 0).fr_busy = true ∧ (openIn .idle 0).fr_mode = .idle) := by decide

theorem witness_FrByteInATypeSession :
    ((openIn .type 3).fr_busy = true ∧ (openIn .type 3).fr_mode = .type ∧
      (openIn .type 3).fr_count.toNat < 4) ∧
    ((openIn .type 4).fr_busy = true ∧ (openIn .type 4).fr_mode = .type ∧
      4 ≤ (openIn .type 4).fr_count.toNat) := by decide

/-- The slice of program P2: an IEND chunk. -/
def iend : List Byte := [0x00, 0x00, 0x00, 0x00, 0x49, 0x45, 0x4E, 0x44, 0xAE, 0x42, 0x60, 0x82]

/-- A chunk of type "iEND" with the one data byte 0x00. -/
def oneByte : List Byte := chunkBytes [0x69, 0x45, 0x4E, 0x44] [0x00]

theorem witness_FrByteInAParseSession :
    (∀ n ∈ [3, 7, 8, 11, 12], (openIn .parse n).fr_busy = true ∧ (openIn .parse n).fr_mode = .parse) ∧
    (∃ t, execAll (.frParse :: iend.map .frByte) State.reset = .next t ∧ 4 ≤ iend.length ∧
      iend.length = 12 + t.fr_len.toNat) := ⟨by decide, _, rfl, by decide, by decide⟩

theorem witness_FrByteInAComposeSession :
    (∀ n ∈ [3, 4], (openIn .compose n).fr_busy = true ∧ (openIn .compose n).fr_mode = .compose) ∧
      4 ≤ ([0x49, 0x45, 0x4E, 0x44] : List Byte).length := by decide

theorem witness_FrEndClosesTheSession :
    State.reset.fr_busy = false ∧
    (∀ m ∈ [Mode.idle, .parse, .compose, .type],
      (openIn m 0).fr_busy = true ∧ (openIn m 0).fr_count = 0 ∧ (openIn m 0).fr_mode = m) := by decide

theorem witness_TypeSessionResult :
    ((openIn .type 4).fr_busy = true ∧ (openIn .type 4).fr_mode = .type) ∧
      ([0x52, 0x75, 0x53, 0x74] : List Byte).length = 4 := by decide

theorem witness_ParseSessionResult :
    ((openIn .parse 12).fr_busy = true ∧ (openIn .parse 12).fr_mode = .parse ∧
      (openIn .parse 12).fr_count.toNat = 12 + (openIn .parse 12).fr_len.toNat) ∧
    (∃ t, (openIn .parse (2 ^ 64 - 1)).fr_count.toNat = 2 ^ 64 - 1 ∧
      exec .frEnd (openIn .parse (2 ^ 64 - 1)) = .next t) := ⟨by decide, _, by decide, rfl⟩

theorem witness_ComposeSessionResult :
    ((openIn .compose 4).fr_busy = true ∧ (openIn .compose 4).fr_mode = .compose) ∧
    (∃ t, execAll (composeSession [0x49, 0x45, 0x4E, 0x44]) State.reset = .next t ∧ t.fr_err = 0) :=
  ⟨by decide, _, rfl, by decide⟩

theorem witness_AbortReturnsTheFramerToReset : sticky.framerReset :=
  ⟨⟨rfl, rfl, rfl⟩, rfl, rfl, rfl, rfl, rfl, rfl⟩

theorem witness_ControlStatesMoveByTheTable :
    sticky.isIdle ∧ (openIn .parse 3).isOpen .parse ∧
    ({ State.reset with fr_mode := .type, fr_done := true, fr_err := 5 } : State).isDone .type 5 ∧
    (∃ t, stepWord 0x00000001 (openIn .parse 3) = .next t ∧
      ∀ i, decode 0x00000001 = .ok i → i.isFramerCommand = false) ∧
    (∃ t, Host.Core.run core 2 { State.reset with cycles := [PortIn.offer 0x10] } = .next t) := by
  refine ⟨⟨rfl, rfl, rfl⟩, ⟨by decide, rfl, rfl, rfl⟩, ⟨by decide, rfl, rfl, rfl, rfl⟩,
    ⟨_, rfl, ?_⟩, ⟨_, rfl⟩⟩
  intro i h
  cases h
  rfl

/-- A TYPE session just opened, in which the host offers FR.BYTE 0x41. -/
def typeOpenOffered : State := { openIn .type 0 with cycles := [PortIn.offer 0x00004113] }

theorem typeOpenOffered_inv : typeOpenOffered.Inv where
  control := Or.inr (Or.inl ⟨.type, by decide, rfl, rfl, rfl⟩)
  idle_reset := fun h => nomatch h
  err_none_until_end := fun _ => rfl
  err_of_mode := by decide
  last_code := by decide
  type_unreceived := fun j _ => typeByte_zero j
  type_untouched := fun _ => ⟨rfl, rfl, rfl⟩
  compose_untouched := fun h => nomatch h
  compose_len := fun h => nomatch h
  parse_untouched := fun h => nomatch h

theorem witness_EveryStepKeepsTheInvariant :
    typeOpenOffered.Inv ∧ ∃ t, step typeOpenOffered = .next t := ⟨typeOpenOffered_inv, _, rfl⟩

theorem witness_WhoWritesEachElement :
    (∃ t, stepWord 0x00000001 { State.reset with crc_state := 0 } = .next t ∧ t.crc_state ≠ 0) ∧
    (∃ t, stepWord 0x00000010 State.reset = .next t ∧ t.fr_mode ≠ .idle ∧ t.fr_busy ≠ false) ∧
    (∃ t, stepWord 0x00004113 (openIn .type 0) = .next t ∧ t.fr_count ≠ (openIn .type 0).fr_count) ∧
    (∃ t, stepWord 0x00000003 sticky = .next t ∧ t.ill_sticky = false ∧ t.rej_sticky = false) ∧
    (∃ t, stepWord 0x00000004 State.reset = .next t ∧ t.ill_sticky = true) ∧
    (∃ t, stepWord 0x00000014 State.reset = .next t ∧ t.rej_sticky = true) :=
  ⟨⟨_, rfl, by decide⟩, ⟨_, rfl, by decide, by decide⟩, ⟨_, rfl, by decide⟩, ⟨_, rfl, rfl, rfl⟩,
    ⟨_, rfl, rfl⟩, ⟨_, rfl, rfl⟩⟩

theorem witness_session_starts :
    ∀ i ∈ [Instr.frParse, .frCompose, .frType], i = .frParse ∨ i = .frCompose ∨ i = .frType := by decide

theorem witness_ParseRoundTrip :
    ∃ t, execAll (parseSession iend) State.reset = .next t ∧ t.fr_err = 0 := ⟨_, rfl, by decide +kernel⟩

theorem witness_ComposeThenParse :
    ∃ t, execAll (composeSession ([0x69, 0x45, 0x4E, 0x44] ++ [0x00])) State.reset = .next t ∧
      ([0x69, 0x45, 0x4E, 0x44] : List Byte).length = 4 ∧ t.fr_err = 0 :=
  ⟨_, rfl, rfl, by decide +kernel⟩

theorem witness_IsValidIsReportedNotEnforced :
    ([0x52, 0x75, 0x73, 0x74] : List Byte).length = 4 ∧
      ([0x52, 0x75, 0x73, 0x74] : List Byte).all isLetter = true ∧
      isLower (([0x52, 0x75, 0x73, 0x74] : List Byte).getD 2 0) = true ∧
      ([] : List Byte).length ≤ 2 ^ 32 - 1 := by decide

theorem witness_ErrorComesWithItsData :
    (∃ t, exec .frEnd (openIn .parse 11) = .next t ∧ t.fr_err = 1) ∧
    (∃ t, exec .frEnd (openIn .parse 13) = .next t ∧ t.fr_err = 2) ∧
    (∃ t, exec .frEnd (openIn .type 4) = .next t ∧ t.fr_err = 3) ∧
    (∃ t, exec .frEnd { openIn .parse 12 with fr_type := 0x49454E44, fr_crc_rx := 1 } = .next t ∧
      t.fr_err = 4) ∧
    (∃ t, exec .frEnd (openIn .type 5) = .next t ∧ t.fr_err = 5) ∧
    (∃ t, exec .frEnd (openIn .compose 3) = .next t ∧ t.fr_err = 5) :=
  ⟨⟨_, rfl, by decide⟩, ⟨_, rfl, by decide⟩, ⟨_, rfl, by decide⟩, ⟨_, rfl, by decide⟩,
    ⟨_, rfl, by decide⟩, ⟨_, rfl, by decide⟩⟩

/-- A slice that parses, and a bit of its length field (byte 3), of its type (bytes 4 and 7) and of its
one data byte (byte 8, the last in front of the CRC field). -/
theorem witness_SingleBitFlipIsCaught :
    ∃ t, execAll (parseSession oneByte) State.reset = .next t ∧ t.fr_err = 0 ∧
      (3 + 4 < oneByte.length ∧ oneByte[3]? = some 0x01) ∧
      (4 + 4 < oneByte.length ∧ oneByte[4]? = some 0x69) ∧
      (7 + 4 < oneByte.length ∧ oneByte[7]? = some 0x44) ∧
      (8 + 4 < oneByte.length ∧ oneByte[8]? = some 0x00) :=
  ⟨_, rfl, by decide +kernel, by decide +kernel, by decide +kernel, by decide +kernel,
    by decide +kernel⟩

theorem witness_WrongTotalLengthIsCaught :
    (∃ t, execAll (parseSession iend) State.reset = .next t ∧ t.fr_err = 0) ∧
    ((iend.take 11).length ≠ iend.length ∧ ∃ n, iend.take 11 = iend.take n) ∧
    ((iend ++ [0x00]).length ≠ iend.length ∧ (iend ++ [0x00]).take 4 = iend.take 4) :=
  ⟨witness_ParseRoundTrip, ⟨by decide, 11, rfl⟩, by decide, by decide⟩

theorem witness_FailedSessionKeepsItsRegisters :
    ∃ t, execAll (session .frType [0x52]) State.reset = .next t ∧ t.fr_err ≠ 0 := ⟨_, rfl, by decide⟩

theorem witness_TypeSessionRefinesTheDocument :
    docTypeParseStr [0x52, 0x75, 0x53, 0x74] = .ok [0x52, 0x75, 0x53, 0x74] ∧
      docTypeParseStr [0x52, 0x75, 0x31, 0x74] = .error .invalidTypeCode ∧
      docTypeParseStr [0x52, 0x75, 0x53] = .error .invalidLength := by decide

theorem witness_ReadMap :
    0xA ≤ (0xA : ReadIndex).toNat ∧ 0xA ≤ (0xF : ReadIndex).toNat := by decide

theorem witness_ReceivedTypeBytesAndValidity :
    State.reset.fr_mode = .idle ∧ (openIn .parse 5).fr_mode = .parse ∧
      (openIn .compose 2).fr_mode = .compose ∧ (openIn .type 4).fr_mode = .type := by decide

theorem witness_CaseFlagsAreRangeTests :
    isLetter 0x41 = true ∧ isLetter 0x5A = true ∧ isLetter 0x61 = true ∧ isLetter 0x7A = true ∧
      isLetter 0x40 = false ∧ isLetter 0x5B = false ∧ isLetter 0x60 = false ∧ isLetter 0x7B = false ∧
      0x80 ≤ (0x80 : Byte).toNat := by decide

theorem witness_ReadPortShowsTheWholeState :
    ∀ idx : ReadIndex, readPort State.reset idx = readPort (offering 0) idx := by decide

theorem witness_CommandLinesAssemble :
    (∃ r ∈ opcodeRows, r.form = .zForm) ∧ (∃ r ∈ opcodeRows, r.form = .bForm) ∧
      (0x7F : Byte).toNat < 128 ∧ " ; comment".toList ∈ ["".toList, " ; comment".toList] := by
  decide +kernel

end Sys2Proof.Machine.Tests
end

section
/-! PROOFS of the statements on the state elements and the read port (10_state.md): the fields of a
read word, the read map, the derived values, and who writes each element. -/

namespace Sys2Proof.Machine

/-! ### The fields of a read word

A read word is a disjunction of fields, so what it shows at some bits is what its fields show there: a
field is whole at its own bits, and 0 at bits that are disjoint from its own. -/

/-- The bits of a field, as numbered bits of the word. -/
@[simp] theorem fieldAt_getLsbD {w : Nat} (n : Nat) (v : BitVec w) {k : Nat} (hk : k < 32) :
    (fieldAt n v).getLsbD k = (decide (n ≤ k) && v.getLsbD (k - n)) := by
  rw [BitVec.getLsbD_eq_getElem hk, fieldAt_getElem]

/-- The bits of a flag, as numbered bits of the word. -/
@[simp] theorem bitAt_getLsbD (n : Nat) (b : Bool) {k : Nat} (hk : k < 32) :
    (bitAt n b).getLsbD k = (decide (k = n) && b) := by
  rw [BitVec.getLsbD_eq_getElem hk, bitAt_getElem]

/-- A field that fits in the word reads back whole. -/
@[simp] theorem extractLsb'_fieldAt_self {w : Nat} (n : Nat) (v : BitVec w) (h : n + w ≤ 32) :
    (fieldAt n v).extractLsb' n w = v := by
  ext k hk
  rw [BitVec.getElem_extractLsb', fieldAt_getLsbD n v (by omega)]
  simp [BitVec.getLsbD_eq_getElem hk]

/-- Where a field has no bits, the word of that field reads 0. -/
@[simp] theorem extractLsb'_fieldAt_disjoint {w : Nat} (n : Nat) (v : BitVec w) (m l : Nat)
    (h : m + l ≤ n ∨ n + w ≤ m) : (fieldAt n v).extractLsb' m l = 0#l := by
  ext k hk
  rw [BitVec.getElem_extractLsb']
  by_cases h32 : m + k < 32
  · rw [fieldAt_getLsbD n v h32]
    rcases h with below | above
    · simp [show ¬ n ≤ m + k by omega]
    · simp [BitVec.getLsbD_of_ge v (m + k - n) (by omega)]
  · simpa using BitVec.getLsbD_of_ge _ _ (by omega)

/-- Where a flag has no bit, the word of that flag reads 0. -/
@[simp] theorem extractLsb'_bitAt_disjoint (n : Nat) (b : Bool) (m l : Nat)
    (h : m + l ≤ n ∨ n + 1 ≤ m) : (bitAt n b).extractLsb' m l = 0#l :=
  extractLsb'_fieldAt_disjoint n _ m l h

/-- A mask that is clear at a field's bits hides the field. -/
theorem fieldAt_and_eq_zero {w : Nat} (n : Nat) (v : BitVec w) (m : Word)
    (h : m.extractLsb' n w = 0) : fieldAt n v &&& m = 0 := by
  ext k hk
  rw [BitVec.getElem_and, fieldAt_getElem]
  by_cases below : k < n
  · simp [below]
  · by_cases above : w ≤ k - n
    · simp [BitVec.getLsbD_of_ge v _ above]
    · have clear : (m.extractLsb' n w)[k - n] = false := by simp [h]
      rw [BitVec.getElem_extractLsb', Nat.add_sub_cancel' (by omega),
        BitVec.getLsbD_eq_getElem hk] at clear
      simp [clear]

/-! ### STATUS and FR_FLAGS, field by field (R43, R44) -/

theorem statusWord_mode (s : State) : (statusWord s).extractLsb' 0 2 = s.fr_mode.code := by
  simp [statusWord, BitVec.extractLsb'_or]

theorem statusWord_err (s : State) : (statusWord s).extractLsb' 8 4 = s.fr_err := by
  simp [statusWord, BitVec.extractLsb'_or]

theorem statusWord_last (s : State) : (statusWord s).extractLsb' 18 2 = s.last := by
  simp [statusWord, BitVec.extractLsb'_or]

theorem statusWord_busy (s : State) : (statusWord s).getLsbD 2 = s.fr_busy := by
  simp [statusWord]

theorem statusWord_done (s : State) : (statusWord s).getLsbD 3 = s.fr_done := by
  simp [statusWord]

theorem statusWord_ok (s : State) : (statusWord s).getLsbD 4 = statusOk s := by
  simp [statusWord]

theorem statusWord_ill (s : State) : (statusWord s).getLsbD 16 = s.ill_sticky := by
  simp [statusWord]

theorem statusWord_rej (s : State) : (statusWord s).getLsbD 17 = s.rej_sticky := by
  simp [statusWord]

/-- The reserved bits of STATUS read 0: 7:5, 15:12 and 31:20 (R43, R45). -/
theorem statusWord_reserved (s : State) : statusWord s &&& 0xFFF0F0E0 = 0 := by
  simp [statusWord, bitAt, BitVec.and_or_distrib_right, fieldAt_and_eq_zero]

/-- STATUS shows seven of the elements whole. -/
theorem elements_eq_of_statusWord_eq {s t : State} (h : statusWord s = statusWord t) :
    s.fr_mode = t.fr_mode ∧ s.fr_busy = t.fr_busy ∧ s.fr_done = t.fr_done ∧ s.fr_err = t.fr_err ∧
      s.ill_sticky = t.ill_sticky ∧ s.rej_sticky = t.rej_sticky ∧ s.last = t.last := by
  refine ⟨Mode.code_injective ?_, ?_, ?_, ?_, ?_, ?_, ?_⟩
  · rw [← statusWord_mode, h, statusWord_mode]
  · rw [← statusWord_busy, h, statusWord_busy]
  · rw [← statusWord_done, h, statusWord_done]
  · rw [← statusWord_err, h, statusWord_err]
  · rw [← statusWord_ill, h, statusWord_ill]
  · rw [← statusWord_rej, h, statusWord_rej]
  · rw [← statusWord_last, h, statusWord_last]

theorem statusOk_iff (s : State) : statusOk s = true ↔ s.fr_done = true ∧ s.fr_err = 0 := by
  simp [statusOk]

/-- Bits 6:0 of FR_FLAGS are its seven flags, in R44's order, and bit 7 is reserved. -/
theorem flagsWord_low (s : State) :
    (flagsWord s).getLsbD 0 = lettersOk s ∧ (flagsWord s).getLsbD 1 = critical s ∧
    (flagsWord s).getLsbD 2 = publicFlag s ∧ (flagsWord s).getLsbD 3 = reservedValid s ∧
    (flagsWord s).getLsbD 4 = safeToCopy s ∧ (flagsWord s).getLsbD 5 = isValid s ∧
    (flagsWord s).getLsbD 6 = typeComplete s ∧ (flagsWord s).getLsbD 7 = false := by
  simp [flagsWord]

/-- TYPE_RCVD fits in its three bits, so the field is the number itself. -/
theorem flagsWord_typeRcvd (s : State) : ((flagsWord s).extractLsb' 8 3).toNat = typeRcvd s := by
  have field : (flagsWord s).extractLsb' 8 3 = BitVec.ofNat 3 (typeRcvd s) := by
    simp [flagsWord, BitVec.extractLsb'_or]
  rw [field, BitVec.toNat_ofNat]
  exact Nat.mod_eq_of_lt (by have := typeRcvd_le s; omega)

/-- The reserved bits of FR_FLAGS read 0: 7 and 31:11 (R44, R45). -/
theorem flagsWord_reserved (s : State) : flagsWord s &&& 0xFFFFF880 = 0 := by
  simp [flagsWord, bitAt, BitVec.and_or_distrib_right, fieldAt_and_eq_zero]

/-! ### The read map (R42, R45, R46) -/

theorem readPort_status (s : State) : readPort s 0x0 = statusWord s := rfl

theorem readPort_flags (s : State) : readPort s 0x5 = flagsWord s := rfl

/-- The two halves of the slice counter are the counter. -/
theorem readPort_count (s : State) : readPort s 0x9 ++ readPort s 0x8 = s.fr_count := by
  show s.fr_count.extractLsb' 32 32 ++ s.fr_count.extractLsb' 0 32 = s.fr_count
  exact BitVec.extractLsb'_append_extractLsb'

/-- The indices 0xA..0xF are reserved. -/
theorem readPort_reserved (s : State) {idx : ReadIndex} (h : 0xA ≤ idx.toNat) :
    readPort s idx = 0 := by
  unfold readPort
  split
  case h_11 => rfl
  all_goals omega

/-- Settles O50, index by index. -/
theorem readMap : Obligations.ReadMap := by
  intro s
  exact ⟨rfl, rfl, rfl, rfl, rfl, rfl, rfl, rfl, readPort_count s,
    fun _ h => readPort_reserved s h, statusWord_reserved s, flagsWord_reserved s⟩

/-- Settles O51, from STATUS field by field. -/
theorem statusFields : Obligations.StatusFields := by
  refine ⟨fun s => ?_, rfl⟩
  rw [readPort_status]
  refine ⟨statusWord_mode s, statusWord_busy s, statusWord_done s, ?ok, ?_, statusWord_err s, ?_,
    statusWord_ill s, statusWord_rej s, statusWord_last s, ?_⟩
  case ok => rw [statusWord_ok, statusOk_iff]
  all_goals simp [statusWord, BitVec.extractLsb'_or]

/-- Settles O52, from FR_FLAGS field by field. -/
theorem flagsFields : Obligations.FlagsFields := by
  refine ⟨fun s => ?_, rfl⟩
  rw [readPort_flags]
  obtain ⟨letters, crit, pub, resv, safe, valid, complete, reserved7⟩ := flagsWord_low s
  refine ⟨letters, crit, pub, resv, safe, valid, complete, reserved7, flagsWord_typeRcvd s,
    typeRcvd_le s, ?_⟩
  simp [flagsWord, BitVec.extractLsb'_or]

/-- Settles O55: STATUS shows seven elements, five indices show one each, and the last two indices show
the two halves of the counter. `fr_crc` is read through its final exclusive-or. -/
theorem readPortShowsTheWholeState : Obligations.ReadPortShowsTheWholeState := by
  intro s t h
  obtain ⟨mode, busy, done, err, ill, rej, last⟩ := elements_eq_of_statusWord_eq (h 0x0)
  have count : s.fr_count = t.fr_count := by
    rw [← readPort_count, h 0x9, h 0x8, readPort_count]
  have crc : s.fr_crc = t.fr_crc := (BitVec.xor_left_inj _).mp (h 0x7)
  have crcState : s.crc_state = t.crc_state := h 0x1
  have len : s.fr_len = t.fr_len := h 0x3
  have type : s.fr_type = t.fr_type := h 0x4
  have crcRx : s.fr_crc_rx = t.fr_crc_rx := h 0x6
  cases s
  rw [State.mk.injEq]
  exact ⟨crcState, mode, busy, done, err, count, len, type, crc, crcRx, ill, rej, last, rfl⟩

/-! ### The derived values (R36 to R40) -/

/-- In PARSE the type bytes come after the four length bytes (R36). -/
theorem typeRcvd_parse {s : State} (h : s.fr_mode = .parse) :
    typeRcvd s = min 4 (s.fr_count.toNat - 4) := by
  simp [typeRcvd, h]

/-- In COMPOSE and TYPE the type bytes come first (R36). -/
theorem typeRcvd_compose_or_type {s : State} (h : s.fr_mode = .compose ∨ s.fr_mode = .type) :
    typeRcvd s = min 4 s.fr_count.toNat := by
  rcases h with h | h <;> simp [typeRcvd, h]

theorem typeComplete_iff (s : State) : typeComplete s = true ↔ typeRcvd s = 4 := by
  simp [typeComplete]

theorem isValid_iff (s : State) :
    isValid s = true ↔ typeRcvd s = 4 ∧ lettersOk s = true ∧ reservedValid s = true := by
  rw [isValid, Bool.and_eq_true, Bool.and_eq_true, typeComplete_iff, and_assoc]

/-- Settles O53, by mode and by type byte. -/
theorem receivedTypeBytesAndValidity : Obligations.ReceivedTypeBytesAndValidity := by
  intro s
  refine ⟨fun h => ?_, fun h => ?_, typeRcvd_compose_or_type, ?_, typeComplete_iff s, isValid_iff s⟩
  · simp [typeRcvd, h]
  · rw [typeRcvd_parse h]
    omega
  · rw [lettersOk_iff]
    refine forall₂_congr fun j hj => ?_
    rw [typeByte_eq_extract _ (lt_of_lt_of_le hj (typeRcvd_le s))]

theorem isUpper_iff (b : Byte) : isUpper b = true ↔ 0x41 ≤ b.toNat ∧ b.toNat ≤ 0x5A := by
  simp [isUpper]

theorem isLower_iff (b : Byte) : isLower b = true ↔ 0x61 ≤ b.toNat ∧ b.toNat ≤ 0x7A := by
  simp [isLower]

theorem isLetter_iff (b : Byte) : isLetter b = true ↔ isUpper b = true ∨ isLower b = true := by
  simp [isLetter]

/-- No letter is 0x00 or outside ASCII (R37). -/
theorem isLetter_eq_false {b : Byte} (h : b = 0x00 ∨ 0x80 ≤ b.toNat) : isLetter b = false := by
  rw [← Bool.not_eq_true, isLetter_iff, isUpper_iff, isLower_iff]
  rcases h with rfl | h
  · decide
  · omega

/-- The upper-case range lies in 64..95 and the lower-case range in 96..127, so bit 5 tells them apart. -/
theorem isUpper_eq_not_bit5 {b : Byte} (h : isLetter b = true) : isUpper b = !b.getLsbD 5 := by
  have bit5 : b.getLsbD 5 = decide (b.toNat / 32 % 2 = 1) := by
    simp [BitVec.getLsbD, Nat.testBit_eq_decide_div_mod_eq]
  rw [isLetter_iff, isUpper_iff, isLower_iff] at h
  rw [Bool.eq_iff_iff, isUpper_iff, bit5, Bool.not_eq_true', decide_eq_false_iff_not]
  omega

/-- Settles O54: the ranges by arithmetic; the flags are the predicates at their type bytes. -/
theorem caseFlagsAreRangeTests : Obligations.CaseFlagsAreRangeTests :=
  ⟨fun b => ⟨isUpper_iff b, isLower_iff b, isLetter_iff b, isLetter_eq_false, isUpper_eq_not_bit5⟩,
    fun _ => ⟨rfl, rfl, rfl, rfl⟩⟩

/-! ### Who writes each state element (R21 to R33) -/

/-- What a word that decodes to `d` can do to a state, by the elements it writes: an illegal word, the
commands grouped by what they write, and a rejected command. -/
inductive WordEffect (s : State) : Except DecodeError Instr → State → Prop
  /-- R91. -/
  | illegal (e : DecodeError) : WordEffect s (.error e) { s with ill_sticky := true, last := 1 }
  /-- R92. -/
  | nop : WordEffect s (.ok .nop) { s with last := 0 }
  /-- R93. -/
  | clear : WordEffect s (.ok .clear) { s with ill_sticky := false, rej_sticky := false, last := 0 }
  /-- CRC.INIT and CRC.BYTE (R104, R105). -/
  | crc (i : Instr) (c : Word) (hi : i = .crcInit ∨ ∃ b, i = .crcByte b) :
      WordEffect s (.ok i) { s with crc_state := c, last := 0 }
  /-- A session start and FR.ABORT (R121, R133). -/
  | restart (i : Instr) (m : Mode) (busy : Bool)
      (hi : i = .frParse ∨ i = .frCompose ∨ i = .frType ∨ i = .frAbort) :
      WordEffect s (.ok i) { clearFramerData s with
        fr_mode := m, fr_busy := busy, fr_done := false, fr_err := errNone, last := 0 }
  /-- FR.BYTE in an open session (R125). -/
  | absorbed (b : Byte) (n : Count) (len type crc crcRx : Word) :
      WordEffect s (.ok (.frByte b)) { s with
        fr_count := n, fr_len := len, fr_type := type, fr_crc := crc, fr_crc_rx := crcRx, last := 0 }
  /-- FR.END in an open session (R129). -/
  | ended (e : BitVec 4) :
      WordEffect s (.ok .frEnd) { s with fr_err := e, fr_busy := false, fr_done := true, last := 0 }
  /-- FR.BYTE and FR.END with no session open (R125, R129). -/
  | rejected (i : Instr) (hi : i = .frEnd ∨ ∃ b, i = .frByte b) (closed : s.fr_busy = false) :
      WordEffect s (.ok i) { s with rej_sticky := true, last := 2 }

theorem exec_wordEffect {i : Instr} {s t : State} (h : exec i s = .next t) :
    WordEffect s (.ok i) t := by
  cases i with
  | nop => cases h; exact .nop
  | clear => cases h; exact .clear
  | crcInit => cases h; exact .crc _ _ (by simp)
  | crcByte b => cases h; exact .crc _ _ (by simp)
  | frParse => cases h; exact .restart _ _ _ (by simp)
  | frCompose => cases h; exact .restart _ _ _ (by simp)
  | frType => cases h; exact .restart _ _ _ (by simp)
  | frAbort => cases h; exact .restart _ _ _ (by simp)
  | frByte b =>
    cases busy : s.fr_busy with
    | true =>
      rw [exec_frByte_open busy, absorb_frame] at h
      cases h
      exact .absorbed _ _ _ _ _ _
    | false =>
      rw [exec_frByte_closed busy] at h
      cases h
      exact .rejected _ (by simp) busy
  | frEnd =>
    cases busy : s.fr_busy with
    | true =>
      rw [exec_frEnd_open busy] at h
      cases h
      exact .ended _
    | false =>
      rw [exec_frEnd_closed busy] at h
      cases h
      exact .rejected _ (by simp) busy

/-- Every word's next state is one of the effects (R90). -/
theorem stepWord_wordEffect {w : Word} {s t : State} (h : stepWord w s = .next t) :
    WordEffect s (decode w) t := by
  unfold stepWord at h
  split at h
  next e hd =>
    rw [hd]
    cases h
    exact .illegal e
  next i hd =>
    rw [hd]
    exact exec_wordEffect h

/-- Settles O38: an element that an effect does not name is unchanged, and the effects that name it are
those of the commands listed. -/
theorem whoWritesEachElement : Obligations.WhoWritesEachElement := by
  intro w s t h
  have effect := stepWord_wordEffect h
  generalize decode w = d at effect ⊢
  cases effect with
  | illegal e => simp +contextual
  | nop => simp +contextual
  | clear => simp +contextual
  | crc i c hi => rcases hi with rfl | ⟨b, rfl⟩ <;> simp +contextual
  | restart i m busy hi => rcases hi with rfl | rfl | rfl | rfl <;> simp +contextual
  | absorbed b n len type crc crcRx => simp +contextual
  | ended e => simp +contextual
  | rejected i hi closed => rcases hi with rfl | ⟨b, rfl⟩ <;> simp +contextual [closed]

end Sys2Proof.Machine
end

section
/-! PROOFS of the statements on the ports and the clock (20_memory.md): no command reads the host's
coming cycles, so words offered in successive cycles run as the list of words does. -/

namespace Sys2Proof.Machine

/-! ### No command reads the coming cycles (R50, R59)

A step on an offered word sees the words still to come in `cycles`; executing the words as a list sees
only what follows them. Every meaning answers the same on both, `cycles` apart. -/

theorem absorbT_withCycles (i : Nat) (b : Byte) (s : State) (cs : List PortIn) :
    absorbT i b { s with cycles := cs } = { absorbT i b s with cycles := cs } := by
  unfold absorbT
  split_ifs <;> rfl

theorem absorbP_withCycles (i : Nat) (b : Byte) (s : State) (cs : List PortIn) :
    absorbP i b { s with cycles := cs } = { absorbP i b s with cycles := cs } := by
  unfold absorbP
  split_ifs <;> rfl

theorem absorbC_withCycles (i : Nat) (b : Byte) (s : State) (cs : List PortIn) :
    absorbC i b { s with cycles := cs } = { absorbC i b s with cycles := cs } := by
  unfold absorbC
  split_ifs <;> rfl

theorem absorb_withCycles (i : Nat) (b : Byte) (s : State) (cs : List PortIn) :
    absorb i b { s with cycles := cs } = { absorb i b s with cycles := cs } := by
  obtain ⟨_, mode⟩ := s
  cases mode with
  | idle => rfl
  | parse => exact absorbP_withCycles i b _ cs
  | compose => exact absorbC_withCycles i b _ cs
  | type => exact absorbT_withCycles i b _ cs

theorem resolve_withCycles (s : State) (cs : List PortIn) :
    resolve { s with cycles := cs } = resolve s := rfl

theorem exec_withCycles {i : Instr} {s t : State} (h : exec i s = .next t) (cs : List PortIn) :
    exec i { s with cycles := cs } = .next { t with cycles := cs } := by
  cases i with
  | frByte b =>
    rcases Bool.eq_false_or_eq_true s.fr_busy with busy | busy
    · rw [exec_frByte_open busy] at h
      cases h
      rw [exec_frByte_open (s := { s with cycles := cs }) busy, absorb_withCycles]
    · rw [exec_frByte_closed busy] at h
      cases h
      exact exec_frByte_closed (s := { s with cycles := cs }) busy
  | frEnd =>
    rcases Bool.eq_false_or_eq_true s.fr_busy with busy | busy
    · rw [exec_frEnd_open busy] at h
      cases h
      rw [exec_frEnd_open (s := { s with cycles := cs }) busy, resolve_withCycles]
    · rw [exec_frEnd_closed busy] at h
      cases h
      exact exec_frEnd_closed (s := { s with cycles := cs }) busy
  | nop => cases h; rfl
  | crcInit => cases h; rfl
  | crcByte b => cases h; rfl
  | clear => cases h; rfl
  | frParse => cases h; rfl
  | frCompose => cases h; rfl
  | frType => cases h; rfl
  | frAbort => cases h; rfl

theorem stepWord_withCycles {w : Word} {s t : State} (h : stepWord w s = .next t)
    (cs : List PortIn) : stepWord w { s with cycles := cs } = .next { t with cycles := cs } := by
  unfold stepWord at h ⊢
  generalize decode w = d at h ⊢
  cases d with
  | error e => cases h; rfl
  | ok i => exact exec_withCycles h cs

/-! ### Words offered in successive cycles (R50, R59) -/

/-- A step on an offered word executes that word and consumes its cycle (R50). -/
theorem step_offer {w : Word} {cs : List PortIn} {s : State} (h : s.cycles = PortIn.offer w :: cs) :
    step s = stepWord w { s with cycles := cs } := by
  simp [step, clockEdge, State.accepts, State.cmdReady, State.pins, State.popPins, PortIn.offer,
    PortIn.quiet, h]

/-- A sequence of words whose first answers `t` goes on from `t`. -/
theorem execWords_cons {w : Word} {ws : List Word} {s t : State} (h : stepWord w s = .next t) :
    execWords (w :: ws) s = execWords ws t := by
  simp [execWords, h]

/-- A run whose first step answers `t` goes on from `t`. -/
theorem run_succ {n : Nat} {s t : State} (h : step s = .next t) :
    Host.Core.run core (n + 1) s = Host.Core.run core n t := by
  simp [Host.Core.run, show core.step s = .next t from h]

/-- Settles O4, by induction on the words: the first step executes the first word, and the state it
reaches has the other words still to come. -/
theorem offeredWordsRunInOrder : Obligations.OfferedWordsRunInOrder := by
  intro ws rest s hs
  induction ws generalizing s with
  | nil =>
    cases hs
    exact ⟨s, rfl, rfl⟩
  | cons w ws ih =>
    obtain ⟨u, hu, hcycles⟩ := stepWord_next w { s with cycles := ws.map PortIn.offer ++ rest }
    obtain ⟨t, hwords, hrun⟩ := ih u hcycles
    have hfirst : stepWord w { s with cycles := rest } = .next { u with cycles := rest } :=
      stepWord_withCycles hu rest
    have hstep : step s = .next u := (step_offer hs).trans hu
    exact ⟨t, (execWords_cons hfirst).trans hwords, (run_succ hstep).trans hrun⟩

end Sys2Proof.Machine
end

section
/-! PROOFS of the statements on the encoding (30_encoding.md rules R70 to R74): the rows of the opcode map
differ in OP, so a word selects at most one, and the decoder and the encoder are inverse to each other on
the fields of a word. -/

namespace Sys2Proof

open Machine

/-! ### The rows of the opcode map (R73) -/

/-- Where only one element of a list meets a test, the search finds it. -/
theorem find?_eq_some_of_unique {α : Type} {p : α → Bool} {l : List α} {a : α} (mem : a ∈ l)
    (meets : p a = true) (unique : ∀ b ∈ l, p b = true → b = a) : l.find? p = some a := by
  cases found : l.find? p with
  | none => exact absurd meets (List.find?_eq_none.mp found a mem)
  | some b => rw [unique b (List.mem_of_find?_eq_some found) (List.find?_some found)]

/-- No two rows have the same OP. -/
theorem opcodeRows_op_nodup : (opcodeRows.map OpRow.op).Nodup := by decide

/-- No two rows have the same mnemonic. -/
theorem opcodeRows_mnemonic_nodup : (opcodeRows.map OpRow.mnemonic).Nodup := by decide

/-- A row by its OP. -/
theorem row_eq_of_op_eq {r r' : OpRow} (hr : r ∈ opcodeRows) (hr' : r' ∈ opcodeRows)
    (h : r.op = r'.op) : r = r' :=
  List.inj_on_of_nodup_map opcodeRows_op_nodup hr hr' h

/-- A word selects at most one row, the row of its OP. -/
theorem row_eq_of_selects {r r' : OpRow} {w : Word} (hr : r ∈ opcodeRows) (hr' : r' ∈ opcodeRows)
    (h : r.selects w = true) (h' : r'.selects w = true) : r = r' := by
  obtain ⟨op, -, -⟩ := (selects_iff hr w).mp h
  obtain ⟨op', -, -⟩ := (selects_iff hr' w).mp h'
  exact row_eq_of_op_eq hr hr' (op.symm.trans op')

/-- The command of a row has the row's OP, its form, and the operand where the form has one. -/
theorem row_build {r : OpRow} (hr : r ∈ opcodeRows) (b : Byte) :
    opOf (r.build b) = r.op ∧ (r.build b).form = r.form ∧
      (r.build b).operand = if r.form = .zForm then 0 else b := by
  simp only [opcodeRows, List.mem_cons, List.not_mem_nil, or_false] at hr
  rcases hr with rfl | rfl | rfl | rfl | rfl | rfl | rfl | rfl | rfl | rfl <;> exact ⟨rfl, rfl, rfl⟩

/-- Every command is its row's, built from its own operand. -/
theorem exists_row_build_eq (i : Instr) : ∃ r ∈ opcodeRows, r.build i.operand = i := by
  cases i <;> simp [opcodeRows, Instr.operand]

theorem Instr.operand_eq_zero {i : Instr} (h : i.form = .zForm) : i.operand = 0 := by
  cases i with
  | crcByte b => cases h
  | frByte b => cases h
  | _ => rfl

theorem Instr.form_eq_bForm_iff (i : Instr) :
    i.form = .bForm ↔ i = .crcByte i.operand ∨ i = .frByte i.operand := by
  cases i <;> simp [Instr.form, Instr.operand]

/-! ### The decoder, by the row selected (R74) -/

/-- A word that selects a row decodes to that row's command with its bits 15:8 as operand. -/
theorem decode_of_selects {r : OpRow} {w : Word} (hr : r ∈ opcodeRows) (h : r.selects w = true) :
    decode w = .ok (r.build (immField w)) := by
  have found : (opcodeRows.find? fun r => r.selects w) = some r :=
    find?_eq_some_of_unique hr h fun _ hr' h' => row_eq_of_selects hr' hr h' h
  simp [decode, found]

/-- A legal word decodes to the command of a row that it selects. -/
theorem exists_selects_of_decode_ok {w : Word} {i : Instr} (h : decode w = .ok i) :
    ∃ r ∈ opcodeRows, r.selects w = true ∧ i = r.build (immField w) := by
  unfold decode at h
  split at h
  next r found =>
    cases h
    exact ⟨r, List.mem_of_find?_eq_some found, List.find?_some (p := fun r : OpRow => r.selects w) found,
      rfl⟩
  next => cases h

/-- A word is illegal exactly when it selects no row. -/
theorem decode_error_iff (w : Word) :
    (∃ e, decode w = .error e) ↔ ∀ r ∈ opcodeRows, ¬ r.selects w = true := by
  constructor
  · rintro ⟨e, he⟩ r hr selected
    rw [decode_of_selects hr selected] at he
    cases he
  · intro none_selected
    cases h : decode w with
    | error e => exact ⟨e, rfl⟩
    | ok i =>
      obtain ⟨r, hr, selected, -⟩ := exists_selects_of_decode_ok h
      exact absurd selected (none_selected r hr)

theorem fieldsOf_encode (i : Instr) :
    fieldsOf (encode i) = { op := opOf i, imm8 := i.operand, rsv := 0 } := by
  rw [encode_eq_wordOf, fieldsOf_wordOf]

/-- Settles O9: the encoding of a command selects the command's row. -/
theorem decodeOfEncode : Obligations.DecodeOfEncode := by
  intro i
  obtain ⟨r, hr, build⟩ := exists_row_build_eq i
  obtain ⟨op, form, -⟩ := row_build hr i.operand
  rw [build] at op form
  have fields := fieldsOf_encode i
  rw [fieldsOf, CommandFields.mk.injEq] at fields
  obtain ⟨opEq, immEq, rsvEq⟩ := fields
  have selected : r.selects (encode i) = true := by
    rw [selects_iff hr, opEq, immEq, rsvEq, ← op, ← form]
    exact ⟨rfl, rfl, Instr.operand_eq_zero⟩
  rw [decode_of_selects hr selected, immEq, build]

/-- Settles O10: the three fields of a legal word are those of the command's encoding, because a row is
selected by all of them. -/
theorem encodeOfDecode : Obligations.EncodeOfDecode := by
  intro w i h
  obtain ⟨r, hr, selected, rfl⟩ := exists_selects_of_decode_ok h
  obtain ⟨op, -, operand⟩ := row_build hr (immField w)
  obtain ⟨opEq, rsvEq, immZero⟩ := (selects_iff hr w).mp selected
  apply eq_of_fields_eq
  rw [fieldsOf_encode, fieldsOf, op, operand, opEq, rsvEq]
  by_cases z : r.form = .zForm
  · rw [if_pos z, immZero z]
  · rw [if_neg z]

/-- The rows a word selects all have its OP, so they are no more than one. -/
theorem selected_rows_length_le_one (w : Word) :
    (opcodeRows.filter fun r => r.selects w).length ≤ 1 := by
  have sameOp : (opcodeRows.filter fun r => r.selects w).map OpRow.op =
      List.replicate (opcodeRows.filter fun r => r.selects w).length (opField w) := by
    rw [List.map_eq_replicate_iff]
    intro r hr
    obtain ⟨mem, selected⟩ := List.mem_filter.mp hr
    exact ((selects_iff mem w).mp selected).1.symm
  rw [← List.nodup_replicate (a := opField w), ← sameOp]
  exact opcodeRows_op_nodup.sublist (List.filter_sublist.map _)

/-- Settles O11. -/
theorem opcodeMapRowsAreDisjoint : Obligations.OpcodeMapRowsAreDisjoint :=
  ⟨rfl, selected_rows_length_le_one,
    fun _ _ hr h => decode_of_selects hr (beq_iff_eq.mpr h)⟩

/-- Settles O13: a legal word is the encoding of its command, whose IMM8 is its operand. -/
theorem operandIsBits15To8 : Obligations.OperandIsBits15To8 := by
  intro w i h
  have imm : w.extractLsb' 8 8 = i.operand := by
    rw [← encodeOfDecode w i h]
    exact congrArg CommandFields.imm8 (fieldsOf_encode i)
  rw [imm]
  exact ⟨Instr.operand_eq_zero, i.form_eq_bForm_iff⟩

/-! ### The illegal words (R74) -/

/-- Failing to select any row, by the three conditions: the row of the word's OP, if there is one, is the
only row to test. -/
theorem selects_no_row_iff (w : Word) :
    (∀ r ∈ opcodeRows, ¬ r.selects w = true) ↔
      (∀ r ∈ opcodeRows, r.op ≠ opField w) ∨ rsvField w ≠ 0 ∨
        ((∃ r ∈ opcodeRows, r.op = opField w ∧ r.form = .zForm) ∧ immField w ≠ 0) := by
  by_cases inTable : ∃ r ∈ opcodeRows, r.op = opField w
  · obtain ⟨r, hr, op⟩ := inTable
    have only : ∀ r' ∈ opcodeRows, r'.op = opField w → r' = r := fun r' hr' op' =>
      row_eq_of_op_eq hr' hr (op'.trans op.symm)
    have noRow : (∀ r ∈ opcodeRows, ¬ r.selects w = true) ↔ ¬ r.selects w = true := by
      refine ⟨fun h => h r hr, fun h r' hr' selected => h ?_⟩
      rwa [← only r' hr' ((selects_iff hr' w).mp selected).1.symm]
    have zForm : (∃ r ∈ opcodeRows, r.op = opField w ∧ r.form = .zForm) ↔ r.form = .zForm := by
      refine ⟨fun ⟨r', hr', op', z⟩ => ?_, fun z => ⟨r, hr, op, z⟩⟩
      rwa [← only r' hr' op']
    have known : ¬ ∀ r ∈ opcodeRows, r.op ≠ opField w := fun h => h r hr op
    rw [noRow, zForm, selects_iff hr]
    tauto
  · have unknown : ∀ r ∈ opcodeRows, r.op ≠ opField w := fun r hr op => inTable ⟨r, hr, op⟩
    exact iff_of_true (fun r hr selected => unknown r hr ((selects_iff hr w).mp selected).1.symm)
      (.inl unknown)

/-- The commands counted as R74 counts the legal words: the eight of Z-form, and a byte for each of the two
of B-form. -/
def instrEquiv : Instr ≃ Fin 8 ⊕ Byte ⊕ Byte where
  toFun
    | .nop => .inl 0
    | .crcInit => .inl 1
    | .clear => .inl 2
    | .frParse => .inl 3
    | .frCompose => .inl 4
    | .frType => .inl 5
    | .frEnd => .inl 6
    | .frAbort => .inl 7
    | .crcByte b => .inr (.inl b)
    | .frByte b => .inr (.inr b)
  invFun
    | .inl 0 => .nop
    | .inl 1 => .crcInit
    | .inl 2 => .clear
    | .inl 3 => .frParse
    | .inl 4 => .frCompose
    | .inl 5 => .frType
    | .inl 6 => .frEnd
    | .inl 7 => .frAbort
    | .inr (.inl b) => .crcByte b
    | .inr (.inr b) => .frByte b
  left_inv i := by cases i <;> rfl
  right_inv k := by
    rcases k with k | b | b
    · fin_cases k <;> rfl
    · rfl
    · rfl

theorem card_instr : Nat.card Instr = 520 := by
  have byte : Nat.card Byte = 256 := by
    rw [Nat.card_congr BitVec.equivFin.toEquiv, Nat.card_fin]
    rfl
  have : Finite Byte := Finite.of_equiv _ BitVec.equivFin.symm.toEquiv
  rw [Nat.card_congr instrEquiv, Nat.card_sum, Nat.card_sum, Nat.card_fin, byte]

/-- The legal words are the encodings. -/
theorem legal_words_eq_range : { w : Word | ∃ i, decode w = .ok i } = Set.range encode := by
  ext w
  constructor
  · rintro ⟨i, h⟩
    exact ⟨i, encodeOfDecode w i h⟩
  · rintro ⟨i, rfl⟩
    exact ⟨i, decodeOfEncode i⟩

theorem encode_injective : Function.Injective encode := by
  intro i j h
  have ok : Except.ok i = (Except.ok j : Except DecodeError Instr) := by
    rw [← decodeOfEncode i, h, decodeOfEncode j]
  exact Except.ok.inj ok

/-- What an illegal word does (R91). -/
theorem stepWord_of_decode_error {w : Word} {e : DecodeError} (h : decode w = .error e) (s : State) :
    stepWord w s = .next { s with ill_sticky := true, last := 1 } := by
  rw [stepWord, h]
  exact illegalWord_eq s

/-- Settles O12: the illegal words are those that select no row, and the legal ones are as many as the
commands, `encode` being injective. -/
theorem whichWordsAreIllegal : Obligations.WhichWordsAreIllegal := by
  refine ⟨fun w => (decode_error_iff w).trans (selects_no_row_iff w), ?count,
    fun w s ⟨e, h⟩ => stepWord_of_decode_error h s⟩
  rw [legal_words_eq_range, ← Nat.card_coe_set_eq, Nat.card_range_of_injective encode_injective,
    card_instr]

/-- Settles O8: each legal word written out is what `encode` computes for its command; the three illegal
ones are run through the decoder. -/
theorem writtenWordsDecode : Obligations.WrittenWordsDecode :=
  ⟨decodeOfEncode .nop, decodeOfEncode .crcInit, decodeOfEncode (.crcByte 0x31),
    decodeOfEncode .clear, decodeOfEncode .frParse, decodeOfEncode .frCompose, decodeOfEncode .frType,
    decodeOfEncode (.frByte 0xAE), decodeOfEncode .frEnd, decodeOfEncode .frAbort,
    by decide, by decide, by decide⟩

end Sys2Proof
end

section
/-! PROOFS of the statement on the pseudo-instructions (30_encoding.md rule R79): their expansions are byte
commands, so they run as a session or as the standalone CRC unit does. -/

namespace Sys2Proof.Machine

/-- The CRC unit on the bytes of `S`, in order, from any state: no other element is written but `last`, and
that only where there is a byte (R105). -/
theorem execAll_crcBytes (S : List Byte) (s : State) :
    execAll (crcBytes S) s =
      .next { s with crc_state := rawFrom s.crc_state S, last := if S = [] then s.last else 0 } := by
  induction S generalizing s with
  | nil => rfl
  | cons b S ih =>
    have first : exec (.crcByte b) s = .next { s with crc_state := upd s.crc_state b, last := 0 } := rfl
    have rest := ih { s with crc_state := upd s.crc_state b, last := 0 }
    rw [crcBytes, List.map_cons, execAll_cons first, ← crcBytes, rest]
    simp

/-- After the four bytes of `v` a PARSE session has the whole length field (R53, R127). -/
theorem ParsedSoFar.length_field {v : Word} {s t : State} (h : ParsedSoFar (be32 v) s t) :
    t.fr_len = v ∧ t.fr_count = 4 := by
  constructor
  · rw [h.len]
    exact beVal_be32 v
  · exact BitVec.eq_of_toNat_eq h.count

/-- Settles O57: the two expansions of words are those of their four big-endian bytes. -/
theorem pseudoInstructionsFeedBytesInOrder : Obligations.PseudoInstructionsFeedBytesInOrder := by
  refine ⟨fun v s => ?_, fun v s => ⟨_, execAll_crcBytes (be32 v) s, rfl⟩,
    fun S s => ⟨_, execAll_crcBytes S s, rfl⟩, rfl, rfl⟩
  obtain ⟨t, ht, h⟩ := parse_absorbs (be32 v) s
  obtain ⟨len, count⟩ := h.length_field
  refine ⟨t, ht, len, ?_⟩
  show t.fr_count.extractLsb' 0 32 = 4
  rw [count]
  rfl

end Sys2Proof.Machine
end

section
/-! PROOFS of the statement on the assembler's lines (30_encoding.md rule R78): the written digits of a number
read back as the number, and a line is split in the mnemonic and the operand it was put together from. -/

namespace Sys2Proof.Machine

/-! ### Numbers

`Nat.toDigits` writes a number's digits, the most significant first; reading them gives the number. -/

theorem digitValue_digitChar {base d : Nat} (hbase : base ≤ 16) (hd : d < base) :
    digitValue base (Nat.digitChar d) = some d := by
  have value : digitValue base (Nat.digitChar d) = if d < base then some d else none := by
    have : d < 16 := by omega
    interval_cases d <;> rfl
  rw [value, if_pos hd]

/-- Reading goes on from the value of the digits already read. -/
theorem readDigits_append {base acc n : Nat} {cs : List Char} (h : readDigits base acc cs = some n)
    (ds : List Char) : readDigits base acc (cs ++ ds) = readDigits base n ds := by
  induction cs generalizing acc with
  | nil =>
    cases h
    rfl
  | cons c cs ih =>
    cases hc : digitValue base c with
    | none => simp [readDigits, hc] at h
    | some v =>
      simp only [readDigits, hc] at h
      simp only [List.cons_append, readDigits, hc]
      exact ih h

/-- The digits of a number read as the number, by induction on the number without its last digit. -/
theorem readDigits_toDigits {base : Nat} (one_lt : 1 < base) (hbase : base ≤ 16) (n : Nat) :
    readDigits base 0 (Nat.toDigits base n) = some n := by
  induction n using Nat.strongRecOn with
  | ind n ih =>
    by_cases small : n < base
    · rw [Nat.toDigits_of_lt_base small]
      simp [readDigits, digitValue_digitChar hbase small]
    · have front := ih (n / base) (Nat.div_lt_self (by omega) one_lt)
      have last := digitValue_digitChar hbase (Nat.mod_lt n (by omega))
      rw [Nat.toDigits_of_base_le one_lt (by omega), readDigits_append front]
      simp [readDigits, last, Nat.div_add_mod']

/-- Every character of a written number is a digit. -/
theorem exists_digit_of_mem_toDigits {base n : Nat} {c : Char} (one_lt : 1 < base)
    (h : c ∈ Nat.toDigits base n) : ∃ d, c = Nat.digitChar d := by
  induction n using Nat.strongRecOn with
  | ind n ih =>
    by_cases small : n < base
    · rw [Nat.toDigits_of_lt_base small, List.mem_singleton] at h
      exact ⟨n, h⟩
    · rw [Nat.toDigits_of_base_le one_lt (by omega), List.mem_append, List.mem_singleton] at h
      rcases h with front | last
      · exact ih (n / base) (Nat.div_lt_self (by omega) one_lt) front
      · exact ⟨_, last⟩

/-- Digits with no `x` among them are no hexadecimal number. -/
theorem readNumber_of_x_notMem {cs : List Char} (ne : cs ≠ []) (hx : 'x' ∉ cs) :
    readNumber cs = readDigits 10 0 cs := by
  unfold readNumber
  split
  · contradiction
  · simp at hx
  · simp at hx
  · rfl

theorem readNumber_decimal (n : Nat) : readNumber (Nat.toDigits 10 n) = some n := by
  rw [readNumber_of_x_notMem Nat.toDigits_ne_nil, readDigits_toDigits (by decide) (by decide)]
  intro hx
  obtain ⟨d, hd⟩ := exists_digit_of_mem_toDigits (by decide) hx
  exact Nat.digitChar_ne 'x' rfl hd.symm

theorem readNumber_hexadecimal (n : Nat) :
    readNumber ('0' :: 'x' :: Nat.toDigits 16 n) = some n := by
  rw [← readDigits_toDigits (base := 16) (by decide) (by decide) n]
  cases h : Nat.toDigits 16 n with
  | nil => exact absurd h Nat.toDigits_ne_nil
  | cons c cs => rfl

/-- A word's number fits in the word. -/
theorem readBits_of_readNumber {w : Nat} {v : BitVec w} {cs : List Char}
    (h : readNumber cs = some v.toNat) : readBits w cs = some v := by
  simp [readBits, h, v.isLt]

/-! ### The parts of a line -/

/-- A character that is neither a blank nor starts a comment or a literal. -/
def isPlain (c : Char) : Bool :=
  !isBlank c && c != ';' && c != '\'' && c != '"'

theorem isPlain_iff (c : Char) :
    isPlain c = true ↔ isBlank c = false ∧ c ≠ ';' ∧ c ≠ '\'' ∧ c ≠ '"' := by
  simp [isPlain, and_assoc]

/-- The first word of a line ends at the first blank, so a plain word is whole. -/
theorem nonblank_of_plain {cs : List Char} (plain : ∀ c ∈ cs, isPlain c = true) :
    ∀ c ∈ cs, (!isBlank c) = true := by
  intro c hc
  simp [((isPlain_iff c).mp (plain c hc)).1]

theorem isPlain_digitChar (d : Nat) : isPlain (Nat.digitChar d) = true := by
  simp [isPlain_iff, isBlank, Nat.digitChar_ne]

theorem isPlain_of_mem_toDigits {base n : Nat} (one_lt : 1 < base) :
    ∀ c ∈ Nat.toDigits base n, isPlain c = true := by
  intro c h
  obtain ⟨d, rfl⟩ := exists_digit_of_mem_toDigits one_lt h
  exact isPlain_digitChar d

theorem dropComment_cons {c : Char} (comment : c ≠ ';') (quote : c ≠ '\'') (doubleQuote : c ≠ '"')
    (cs : List Char) : dropComment false (c :: cs) = c :: dropComment false cs := by
  rw [dropComment]
  · simp [comment, beq_eq_false_iff_ne.mpr doubleQuote]
  · exact fun _ _ h => absurd h quote

/-- A character literal is passed over whole, whatever its character. -/
theorem dropComment_literal (c : Char) (cs : List Char) :
    dropComment false ('\'' :: c :: '\'' :: cs) = '\'' :: c :: '\'' :: dropComment false cs := rfl

theorem dropComment_plain_append {cs : List Char} (plain : ∀ c ∈ cs, isPlain c = true)
    (rest : List Char) : dropComment false (cs ++ rest) = cs ++ dropComment false rest := by
  induction cs with
  | nil => rfl
  | cons c cs ih =>
    obtain ⟨hc, hcs⟩ := List.forall_mem_cons.mp plain
    obtain ⟨-, comment, quote, doubleQuote⟩ := (isPlain_iff c).mp hc
    rw [List.cons_append, dropComment_cons comment quote doubleQuote, ih hcs, List.cons_append]

/-- A part of a line that the assembler leaves whole: no comment or open string begins in it, and it
neither begins nor ends with a blank. -/
structure IsPart (cs : List Char) : Prop where
  kept : ∀ rest, dropComment false (cs ++ rest) = cs ++ dropComment false rest
  head : ∃ a l, cs = a :: l ∧ isBlank a = false
  last : ∃ l z, cs = l ++ [z] ∧ isBlank z = false

/-- Mnemonics and numbers are parts. -/
theorem IsPart.of_plain {cs : List Char} (ne : cs ≠ []) (plain : ∀ c ∈ cs, isPlain c = true) :
    IsPart cs where
  kept := dropComment_plain_append plain
  head := by
    obtain ⟨a, l, rfl⟩ := List.exists_cons_of_ne_nil ne
    exact ⟨a, l, rfl, ((isPlain_iff a).mp (plain a List.mem_cons_self)).1⟩
  last := ⟨_, _, (List.dropLast_append_getLast ne).symm,
    ((isPlain_iff _).mp (plain _ (List.getLast_mem ne))).1⟩

/-- A character literal is a part, whatever its character. -/
theorem IsPart.literal (c : Char) : IsPart ['\'', c, '\''] where
  kept := dropComment_literal c
  head := ⟨_, _, rfl, rfl⟩
  last := ⟨['\'', c], _, rfl, rfl⟩

/-- Two parts with a blank between them are a part. -/
theorem IsPart.append_blank {cs ds : List Char} (hcs : IsPart cs) (hds : IsPart ds) :
    IsPart (cs ++ ' ' :: ds) where
  kept rest := by
    rw [List.append_assoc, hcs.kept, List.cons_append,
      dropComment_cons (by decide) (by decide) (by decide), hds.kept, List.append_assoc,
      List.cons_append]
  head := by
    obtain ⟨a, l, rfl, ha⟩ := hcs.head
    exact ⟨a, _, rfl, ha⟩
  last := by
    obtain ⟨l, z, rfl, hz⟩ := hds.last
    exact ⟨cs ++ ' ' :: l, z, by simp, hz⟩

/-- Trimming takes the blanks around a part and nothing of the part. -/
theorem IsPart.trimBlanks_eq {cs pre post : List Char} (h : IsPart cs)
    (hpre : ∀ c ∈ pre, isBlank c = true) (hpost : ∀ c ∈ post, isBlank c = true) :
    trimBlanks (pre ++ (cs ++ post)) = cs := by
  have front : (pre ++ (cs ++ post)).dropWhile isBlank = cs ++ post := by
    obtain ⟨a, l, rfl, ha⟩ := h.head
    rw [List.dropWhile_append_of_pos hpre]
    exact List.dropWhile_cons_of_neg (by simp [ha])
  have back : (cs ++ post).reverse.dropWhile isBlank = cs.reverse := by
    obtain ⟨l, z, rfl, hz⟩ := h.last
    rw [List.reverse_append, List.dropWhile_append_of_pos (by simpa using hpost), List.reverse_concat]
    exact List.dropWhile_cons_of_neg (by simp [hz])
  rw [trimBlanks, front, back, List.reverse_reverse]

/-- What follows the command on a line: of it only blanks are left once the comment is dropped. -/
def EndsLine (tail : List Char) : Prop :=
  ∀ c ∈ dropComment false tail, isBlank c = true

theorem endsLine_nil : EndsLine [] := by
  intro c h
  cases h

theorem endsLine_comment : EndsLine " ; comment".toList := by
  simp [EndsLine, dropComment, isBlank]

theorem assembleLine_of_isPart {cs tail : List Char} (h : IsPart cs) (ends : EndsLine tail) :
    assembleLine (cs ++ tail) =
      assembleParts (cs.takeWhile fun c => !isBlank c) (trimBlanks (cs.dropWhile fun c => !isBlank c)) := by
  have trimmed : trimBlanks (dropComment false (cs ++ tail)) = cs := by
    rw [h.kept]
    exact h.trimBlanks_eq (pre := []) (by simp) ends
  obtain ⟨a, l, rfl, -⟩ := h.head
  rw [assembleLine, trimmed]
  rfl

/-- A line of a mnemonic alone. -/
theorem assembleLine_name {name tail : List Char} (ne : name ≠ [])
    (plain : ∀ c ∈ name, isPlain c = true) (ends : EndsLine tail) :
    assembleLine (name ++ tail) = assembleParts name [] := by
  have nonblank := nonblank_of_plain plain
  rw [assembleLine_of_isPart (.of_plain ne plain) ends, List.takeWhile_eq_self_iff.mpr nonblank,
    List.dropWhile_eq_nil_iff.mpr nonblank]
  rfl

/-- A line of a mnemonic and an operand. -/
theorem assembleLine_name_arg {name arg tail : List Char} (ne : name ≠ [])
    (plain : ∀ c ∈ name, isPlain c = true) (harg : IsPart arg) (ends : EndsLine tail) :
    assembleLine (name ++ ' ' :: arg ++ tail) = assembleParts name arg := by
  have nonblank := nonblank_of_plain plain
  have trimmed : trimBlanks (' ' :: arg) = arg := by
    simpa using harg.trimBlanks_eq (pre := [' ']) (post := []) (by simp [isBlank]) (by simp)
  rw [assembleLine_of_isPart ((IsPart.of_plain ne plain).append_blank harg) ends,
    List.takeWhile_append_of_pos nonblank, List.dropWhile_append_of_pos nonblank,
    List.takeWhile_cons_of_neg (by decide), List.dropWhile_cons_of_neg (by decide), trimmed,
    List.append_nil]

/-! ### Command lines (R78) -/

theorem mnemonic_plain {r : OpRow} (hr : r ∈ opcodeRows) :
    r.mnemonic.toList ≠ [] ∧ ∀ c ∈ r.mnemonic.toList, isPlain c = true := by
  have all : ∀ m ∈ opcodeRows.map OpRow.mnemonic,
      m.toList ≠ [] ∧ ∀ c ∈ m.toList, isPlain c = true := by
    simp [opcodeRows, isPlain_iff, isBlank]
  exact all _ (List.mem_map_of_mem hr)

/-- A line that begins with a row's mnemonic is read by that row. -/
theorem assembleParts_mnemonic {r : OpRow} (hr : r ∈ opcodeRows) (arg : List Char) :
    assembleParts r.mnemonic.toList arg = assembleRow r arg := by
  have found : (opcodeRows.find? fun r' => r'.mnemonic.toList == r.mnemonic.toList) = some r := by
    refine find?_eq_some_of_unique hr (by simp) fun r' hr' same => ?_
    exact List.inj_on_of_nodup_map opcodeRows_mnemonic_nodup hr' hr
      (String.toList_inj.mp (beq_iff_eq.mp same))
  rw [assembleParts, found]

theorem assembleLine_zForm {r : OpRow} (hr : r ∈ opcodeRows) (form : r.form = .zForm)
    {tail : List Char} (ends : EndsLine tail) :
    assembleLine (r.mnemonic.toList ++ tail) = some [encode (r.build 0)] := by
  obtain ⟨ne, plain⟩ := mnemonic_plain hr
  rw [assembleLine_name ne plain ends, assembleParts_mnemonic hr, assembleRow, form]
  rfl

theorem assembleLine_bForm {r : OpRow} (hr : r ∈ opcodeRows) (form : r.form = .bForm)
    {arg tail : List Char} {b : Byte} (harg : IsPart arg) (read : readImm arg = some b)
    (ends : EndsLine tail) :
    assembleLine (r.mnemonic.toList ++ ' ' :: arg ++ tail) = some [encode (r.build b)] := by
  obtain ⟨ne, plain⟩ := mnemonic_plain hr
  rw [assembleLine_name_arg ne plain harg ends, assembleParts_mnemonic hr, assembleRow, form]
  simp [read]

/-! The operands: a decimal number, a hexadecimal number and a character literal. -/

theorem isPart_decimal (n : Nat) : IsPart (Nat.toDigits 10 n) :=
  .of_plain Nat.toDigits_ne_nil (isPlain_of_mem_toDigits (by decide))

theorem isPart_hexadecimal (n : Nat) : IsPart ('0' :: 'x' :: Nat.toDigits 16 n) := by
  refine .of_plain (by simp) ?_
  rw [List.forall_mem_cons, List.forall_mem_cons]
  exact ⟨rfl, rfl, isPlain_of_mem_toDigits (by decide)⟩

/-- A number whose first character is no quote is no literal. -/
theorem readImm_of_head_ne_quote {a : Char} {l : List Char} (h : a ≠ '\'') :
    readImm (a :: l) = readBits 8 (a :: l) := by
  unfold readImm
  split
  next heq =>
    cases heq
    exact absurd rfl h
  next => rfl

theorem readImm_decimal (b : Byte) : readImm (Nat.toDigits 10 b.toNat) = some b := by
  have number := readBits_of_readNumber (readNumber_decimal b.toNat)
  have digits := isPlain_of_mem_toDigits (base := 10) (n := b.toNat) (by decide)
  cases h : Nat.toDigits 10 b.toNat with
  | nil => exact absurd h Nat.toDigits_ne_nil
  | cons a l =>
    rw [h] at number digits
    rw [readImm_of_head_ne_quote, number]
    rintro rfl
    exact absurd (digits '\'' (by simp)) (by decide)

theorem readImm_hexadecimal (b : Byte) :
    readImm ('0' :: 'x' :: Nat.toDigits 16 b.toNat) = some b := by
  rw [readImm_of_head_ne_quote (by decide), readBits_of_readNumber (readNumber_hexadecimal b.toNat)]

theorem readImm_literal {b : Byte} (h : b.toNat < 128) :
    readImm ['\'', Char.ofNat b.toNat, '\''] = some b := by
  have code : (Char.ofNat b.toNat).toNat = b.toNat := by
    rw [Char.toNat_ofNat, if_pos (.inl (by omega))]
  simp [readImm, asciiByte, code, h]

/-- A `.word` line (R78): no row has that name. -/
theorem assembleParts_word {arg : List Char} {v : Word} (h : readBits 32 arg = some v) :
    assembleParts ".word".toList arg = some [v] := by
  have found : (opcodeRows.find? fun r => r.mnemonic.toList == ".word".toList) = none := by rfl
  rw [assembleParts, found]
  simp [h]

/-- Settles O56: every line is a mnemonic, or a mnemonic, a blank and an operand, and then a comment or
none. -/
theorem commandLinesAssemble : Obligations.CommandLinesAssemble := by
  refine ⟨fun r hr form => ⟨?_, assembleLine_zForm hr form endsLine_comment⟩,
    fun r hr form b tail htail => ?_, fun v => ?_⟩
  · simpa using assembleLine_zForm hr form endsLine_nil
  · have ends : EndsLine tail := by
      rcases List.mem_pair.mp htail with rfl | rfl
      · exact endsLine_nil
      · exact endsLine_comment
    refine ⟨assembleLine_bForm hr form (isPart_decimal _) (readImm_decimal b) ends, ?_,
      fun ascii => assembleLine_bForm hr form (.literal _) (readImm_literal ascii) ends⟩
    have line := assembleLine_bForm hr form (isPart_hexadecimal _) (readImm_hexadecimal b) ends
    rwa [show " 0x".toList = [' ', '0', 'x'] from rfl, List.append_assoc r.mnemonic.toList]
  · have line := assembleLine_name_arg (name := ".word".toList) (by simp)
      (by simp [isPlain_iff, isBlank])
      (isPart_hexadecimal v.toNat) endsLine_nil
    rw [assembleParts_word (readBits_of_readNumber (readNumber_hexadecimal v.toNat)),
      List.append_nil] at line
    exact line

end Sys2Proof.Machine
end

section
/-! PROOFS of the statements on the control commands (40_control.md rules R90 to R93): one rising edge by the
pins of its cycle, the one outcome of a command word, and the rules' examples run word by word. -/

namespace Sys2Proof.Machine

/-! ### One rising edge, by the pins of its cycle (R50, R190, R194) -/

theorem step_of_rst {s : State} (rst : s.pins.rst = true) : step s = .next (resetEdge s.popPins) := by
  simp [step, clockEdge, rst]

theorem step_of_word_offered {s : State} (rst : s.pins.rst = false) (valid : s.pins.cmd_valid = true) :
    step s = stepWord s.pins.cmd_data s.popPins := by
  simp [step, clockEdge, State.accepts, State.cmdReady, rst, valid]

theorem step_of_no_word {s : State} (rst : s.pins.rst = false) (valid : s.pins.cmd_valid = false) :
    step s = .next s.popPins := by
  simp [step, clockEdge, State.accepts, rst, valid]

/-! ### The outcome of one command word (R90) -/

/-- A legal word is executed by its row. -/
theorem stepWord_of_decode_ok {w : Word} {i : Instr} (h : decode w = .ok i) (s : State) :
    stepWord w s = exec i s := by
  rw [stepWord, h]

theorem stepWord_encode (i : Instr) (s : State) : stepWord (encode i) s = exec i s :=
  stepWord_of_decode_ok (decodeOfEncode i) s

/-- Every effect of a command but the rejection leaves 0 in `last`. -/
theorem WordEffect.accepted_or_rejected {i : Instr} {s t : State} (h : WordEffect s (.ok i) t) :
    t.last = 0 ∨ t = { s with rej_sticky := true, last := 2 } := by
  cases h with
  | nop => exact .inl rfl
  | clear => exact .inl rfl
  | crc => exact .inl rfl
  | restart => exact .inl rfl
  | absorbed => exact .inl rfl
  | ended => exact .inl rfl
  | rejected => exact .inr rfl

/-- Settles O6: the next state is the illegal word's, or that of the word's row, whose effect is an accepted
or a rejected one. -/
theorem everyWordHasOneOutcome : Obligations.EveryWordHasOneOutcome := by
  intro w s
  cases hd : decode w with
  | error e => exact ⟨_, stepWord_of_decode_error hd s, fun _ _ => rfl, nofun⟩
  | ok i =>
    obtain ⟨t, ht, -⟩ := exec_next i s
    refine ⟨t, (stepWord_of_decode_ok hd s).trans ht, nofun, ?_⟩
    rintro _ ⟨⟩
    exact ⟨ht, (exec_wordEffect ht).accepted_or_rejected⟩

/-- Settles O1: the edge executes the offered word, and that word has the meaning of what it decodes to. -/
theorem stepRunsTheDecodedCommand : Obligations.StepRunsTheDecodedCommand := by
  intro s rst valid
  rw [step_of_word_offered rst valid]
  refine ⟨fun i h => stepWord_of_decode_ok h _, fun i h => ?_, fun e h => stepWord_of_decode_error h _⟩
  rw [h, stepWord_encode]

/-- Settles O5: reset, an offered word and an idle cycle each answer. -/
theorem everyStateHasANextState : Obligations.EveryStateHasANextState := by
  intro s
  cases rst : s.pins.rst with
  | true => exact ⟨_, step_of_rst rst, rfl⟩
  | false =>
    cases valid : s.pins.cmd_valid with
    | true =>
      rw [step_of_word_offered rst valid]
      exact stepWord_next _ s.popPins
    | false => exact ⟨_, step_of_no_word rst valid, rfl⟩

/-! ### Illegal words, NOP and CLEAR (R91 to R93) -/

/-- The illegal word of the rules' examples. -/
theorem stepWord_reserved (s : State) :
    stepWord 0x00000004 s = .next { s with ill_sticky := true, last := 1 } :=
  stepWord_of_decode_error (e := .reservedOp) (by decide) s

theorem frEnd_op_is_zForm : ∃ r ∈ opcodeRows, r.op = 0x14 ∧ r.form = .zForm := by
  simp [opcodeRows]

/-- Settles O14: a malformed FR.BYTE or FR.END meets the second or the third of R74's conditions. -/
theorem illegalWordSetsIllOnly : Obligations.IllegalWordSetsIllOnly := by
  obtain ⟨illegal_iff, -, effect⟩ := whichWordsAreIllegal
  refine ⟨fun w s e h => stepWord_of_decode_error h s, fun w s _ malformed => effect w s ?_,
    _, stepWord_reserved _, rfl⟩
  rw [illegal_iff]
  rcases malformed with rsv | ⟨op, imm⟩
  · exact .inr (.inl rsv)
  · rw [op]
    exact .inr (.inr ⟨frEnd_op_is_zForm, imm⟩)

theorem exec_nop (s : State) : exec .nop s = .next { s with last := 0 } := rfl

theorem exec_clear (s : State) :
    exec .clear s = .next { s with ill_sticky := false, rej_sticky := false, last := 0 } := rfl

/-- Settles O15: in the example the illegal word's sticky bit outlives NOP. -/
theorem nopWritesLastOnly : Obligations.NopWritesLastOnly := by
  refine ⟨exec_nop, { State.reset with ill_sticky := true, last := 0 }, ?_, rfl⟩
  calc execWords [0x00000004, 0x00000000] State.reset
    _ = execWords [0x00000000] { State.reset with ill_sticky := true, last := 1 } :=
      execWords_cons (stepWord_reserved _)
    _ = execWords [] { State.reset with ill_sticky := true, last := 0 } :=
      execWords_cons ((stepWord_encode .nop _).trans (exec_nop _))

/-- Settles O16: in the example the second word is an FR.END that is rejected, no session being open, so
that CLEAR finds both sticky bits set. -/
theorem clearClearsTheStickyBits : Obligations.ClearClearsTheStickyBits := by
  refine ⟨exec_clear, { State.reset with ill_sticky := false, rej_sticky := false, last := 0 }, ?_, rfl⟩
  calc execWords [0x00000004, 0x00000014, 0x00000003] State.reset
    _ = execWords [0x00000014, 0x00000003] { State.reset with ill_sticky := true, last := 1 } :=
      execWords_cons (stepWord_reserved _)
    _ = execWords [0x00000003] { State.reset with ill_sticky := true, rej_sticky := true, last := 2 } :=
      execWords_cons ((stepWord_encode .frEnd _).trans (exec_frEnd_closed rfl))
    _ = execWords [] { State.reset with ill_sticky := false, rej_sticky := false, last := 0 } :=
      execWords_cons ((stepWord_encode .clear _).trans (exec_clear _))

end Sys2Proof.Machine
end

section
/-! PROOFS of the statements on the CRC function (41_crc.md rules R101 to R103 and R108): the byte update by
its passes and by its table, the linearity of the register, and what follows for single-bit errors and for a
message with its crc32 appended. -/

namespace Sys2Proof.Machine

/-! ### The byte update (R101) -/

/-- The passes of the loop are iterates of one pass. -/
theorem crcBits_eq_iterate (n : Nat) (c : Word) : crcBits n c = crcBit^[n] c := by
  induction n generalizing c with
  | zero => rfl
  | succ n ih => exact ih (crcBit c)

/-- As long as the passes find a clear bit 0 they only shift. -/
theorem crcBits_eq_ushiftRight {n : Nat} {c : Word} (h : ∀ k < n, c.getLsbD k = false) :
    crcBits n c = c >>> n := by
  induction n generalizing c with
  | zero => simp [crcBits]
  | succ n ih =>
    have shift : crcBit c = c >>> 1 := if_neg (by rw [h 0 n.succ_pos]; decide)
    have clear : ∀ k < n, (c >>> 1).getLsbD k = false := fun k hk => by
      rw [BitVec.getLsbD_ushiftRight]
      exact h (1 + k) (by omega)
    rw [crcBits, shift, ih clear, ← BitVec.shiftRight_add, Nat.add_comm]

/-- A table entry is what the passes make of the byte. -/
theorem upd_zero_left (b : Byte) : upd 0 b = crcBits 8 (b.setWidth 32) :=
  congrArg (crcBits 8) BitVec.zero_xor

/-- The eight passes split a word in its bits 31:8, which they shift down, and its bits 7:0, which select a
table entry. -/
theorem crcBits_eight (w : Word) : crcBits 8 w = (w >>> 8) ^^^ upd 0 (w.setWidth 8) := by
  have split : w = (w &&& 0xFFFFFF00) ^^^ (w.setWidth 8).setWidth 32 := by
    ext k hk
    interval_cases k <;> simp
  have high : crcBits 8 (w &&& 0xFFFFFF00) = w >>> 8 := by
    rw [crcBits_eq_ushiftRight fun k hk => by interval_cases k <;> simp]
    ext k hk
    interval_cases k <;> simp
  calc crcBits 8 w
    _ = crcBits 8 (w &&& 0xFFFFFF00) ^^^ crcBits 8 ((w.setWidth 8).setWidth 32) := by
      rw [← crcBits_xor, ← split]
    _ = (w >>> 8) ^^^ upd 0 (w.setWidth 8) := by rw [high, upd_zero_left]

/-- The byte update in its table form. -/
theorem upd_eq_table (c : Word) (b : Byte) : upd c b = (c >>> 8) ^^^ upd 0 (c.setWidth 8 ^^^ b) := by
  have high : b.setWidth 32 >>> 8 = 0#32 := by
    ext k hk
    simp
  rw [upd, crcBits_eight, BitVec.ushiftRight_xor_distrib, high, BitVec.xor_zero, BitVec.setWidth_xor,
    BitVec.setWidth_setWidth_of_le _ (by decide), BitVec.setWidth_eq]

/-- Settles O17: the table form is the split of the register in its bits 31:8 and 7:0. -/
theorem byteUpdateAndItsTableForm : Obligations.ByteUpdateAndItsTableForm := by
  refine ⟨fun c b => crcBits_eq_iterate 8 _, fun c b => ?_, by decide, by decide, by decide, by decide,
    by decide⟩
  have index : ((c ^^^ b.setWidth 32) &&& 0xFF).setWidth 8 = c.setWidth 8 ^^^ b := by
    ext k hk
    interval_cases k <;> simp
  rw [index, upd_eq_table]

/-! ### The CRC of a message (R102, R103) -/

/-- The register is linear in the register it starts from and the message together. -/
theorem rawFrom_xor (a b : Word) {x y : List Byte} (h : x.length = y.length) :
    rawFrom (a ^^^ b) (List.zipWith (· ^^^ ·) x y) = rawFrom a x ^^^ rawFrom b y := by
  induction x generalizing a b y with
  | nil =>
    cases y with
    | nil => rfl
    | cons _ _ => nomatch h
  | cons u x ih =>
    cases y with
    | nil => nomatch h
    | cons v y =>
      rw [List.zipWith_cons_cons, rawFrom_cons, upd_xor, ih _ _ (Nat.succ.inj h), rawFrom_cons,
        rawFrom_cons]

/-- Settles O18: three initial values, and three final exclusive-ors, have the exclusive-or of one. -/
theorem crcIsIncrementalAndAffine : Obligations.CrcIsIncrementalAndAffine := by
  refine ⟨by decide, fun x y => rawFrom_append _ x y, fun x y z hxy hyz => ?_⟩
  have hz : (List.zipWith (· ^^^ ·) x y).length = z.length := by simp [hxy, hyz]
  have initial : crcInitial = (crcInitial ^^^ crcInitial) ^^^ crcInitial := by decide
  have final : crcFinalXor = (crcFinalXor ^^^ crcFinalXor) ^^^ crcFinalXor := by decide
  have register : raw (List.zipWith (· ^^^ ·) (List.zipWith (· ^^^ ·) x y) z) =
      (raw x ^^^ raw y) ^^^ raw z := by
    simp only [raw]
    rw [← rawFrom_xor _ _ hxy, ← rawFrom_xor _ _ hz, ← initial]
  simp only [crc32, register]
  conv_lhs => rw [final]
  ac_rfl

theorem crc32_eq_iff {x y : List Byte} : crc32 x = crc32 y ↔ raw x = raw y :=
  BitVec.xor_left_inj _

/-- Messages that differ in one byte have different registers: the byte update separates the bytes, and what
follows keeps the registers apart. -/
theorem rawFrom_byte_injective {c : Word} {x y : List Byte} {a b : Byte}
    (h : rawFrom c (x ++ a :: y) = rawFrom c (x ++ b :: y)) : a = b := by
  rw [rawFrom_append, rawFrom_append, rawFrom_cons, rawFrom_cons] at h
  exact upd_right_injective (rawFrom_injective h)

/-- Settles O19: the flipped bit changes its byte. -/
theorem crcDetectsEverySingleBitError : Obligations.CrcDetectsEverySingleBitError := by
  intro S k b j hb hj same
  obtain ⟨hk, rfl⟩ := List.getElem?_eq_some_iff.mp hb
  have split : S.take k ++ S[k] :: S.drop (k + 1) = S := by simp
  have flipped : S[k] ^^^ (1#8 <<< j) = S[k] := by
    rw [crc32_eq_iff, List.set_eq_take_append_cons_drop, if_pos hk] at same
    exact rawFrom_byte_injective (same.trans (congrArg raw split.symm))
  have bit := congrArg (BitVec.getLsbD · j) flipped
  simp [hj] at bit

/-! ### The residue (R108) -/

theorem le32_xor (a b : Word) : le32 (a ^^^ b) = List.zipWith (· ^^^ ·) (le32 a) (le32 b) := by
  simp [le32, BitVec.extractLsb'_xor]

/-- A register that absorbs its own low byte is shifted down by it. -/
theorem upd_low_byte (c : Word) : upd c (c.setWidth 8) = c >>> 8 := by
  rw [upd_eq_table, BitVec.xor_self]
  exact BitVec.xor_zero

/-- A register that absorbs its own four bytes, the least significant first, ends at 0. -/
theorem rawFrom_le32_self (c : Word) : rawFrom c (le32 c) = 0 := by
  have bytes : le32 c = [c.setWidth 8, (c >>> 8).setWidth 8, (c >>> 16).setWidth 8,
      (c >>> 24).setWidth 8] := rfl
  have shifted (m : Nat) : upd (c >>> m) ((c >>> m).setWidth 8) = c >>> (m + 8) := by
    rw [upd_low_byte, BitVec.shiftRight_add]
  calc rawFrom c (le32 c)
    _ = c >>> 32 := by
      rw [bytes, rawFrom_cons, upd_low_byte, rawFrom_cons, shifted, rawFrom_cons, shifted, rawFrom_cons,
        shifted, rawFrom_nil]
    _ = 0 := BitVec.ushiftRight_eq_zero (le_refl 32)

/-- So a register that absorbs its own four bytes, each changed by those of `d`, ends where `d` alone takes
the zero register. -/
theorem rawFrom_le32_xor (c d : Word) : rawFrom c (le32 (c ^^^ d)) = rawFrom 0 (le32 d) := by
  calc rawFrom c (le32 (c ^^^ d))
    _ = rawFrom (c ^^^ 0) (List.zipWith (· ^^^ ·) (le32 c) (le32 d)) := by simp [le32_xor]
    _ = rawFrom c (le32 c) ^^^ rawFrom 0 (le32 d) := rawFrom_xor c 0 rfl
    _ = rawFrom 0 (le32 d) := by simp [rawFrom_le32_self]

/-- Settles O20: the messages for the big-endian order are the empty one and the byte 0x00. -/
theorem residueOfAppendedCrc : Obligations.ResidueOfAppendedCrc := by
  have residue : rawFrom 0 (le32 crcFinalXor) = 0xDEBB20E3 := by decide +kernel
  have final : (0xDEBB20E3 : Word) ^^^ crcFinalXor = 0x2144DF1C := by decide
  refine ⟨fun S => ?_, [], [0x00], by decide +kernel⟩
  have value : raw (S ++ le32 (crc32 S)) = 0xDEBB20E3 := by
    rw [raw, rawFrom_append, crc32, raw, rawFrom_le32_xor, residue]
  exact ⟨value, by rw [crc32, value, final]⟩

end Sys2Proof.Machine
end

section
/-! PROOFS of the statements on the commands of the CRC unit (41_crc.md rules R104 to R107): what each leaves,
and that the CRC unit and the framer neither write nor read each other's elements. -/

namespace Sys2Proof.Machine

/-! ### CRC.INIT and CRC.BYTE (R104 to R106) -/

theorem exec_crcInit (s : State) :
    exec .crcInit s = .next { s with crc_state := crcInitial, last := 0 } := rfl

theorem exec_crcByte (b : Byte) (s : State) :
    exec (.crcByte b) s = .next { s with crc_state := upd s.crc_state b, last := 0 } := rfl

theorem readPort_crcState (s : State) : readPort s 0x1 = s.crc_state := rfl

theorem readPort_crcValue (s : State) : readPort s 0x2 = s.crc_state ^^^ crcFinalXor := rfl

/-- CRC.INIT and the bytes of `S` leave the register of `S` in `crc_state`, so CRC_VALUE is its crc32. -/
theorem execAll_crcInit_bytes (S : List Byte) (s : State) :
    ∃ t, execAll (.crcInit :: S.map .crcByte) s = .next t ∧ readPort t 0x2 = crc32 S := by
  rw [execAll_cons (exec_crcInit s)]
  exact ⟨_, execAll_crcBytes S _, rfl⟩

/-- Settles O21: the initial value and the final exclusive-or are the same word. -/
theorem crcInitLoadsTheInitialValue : Obligations.CrcInitLoadsTheInitialValue := by
  refine ⟨exec_crcInit, fun s t h => ?_, exec_crcInit _⟩
  cases h
  exact ⟨readPort_crcState _, (readPort_crcValue _).trans BitVec.xor_self⟩

/-- Settles O23: the chunk's CRC field is the crc32 that CRC_VALUE reads. -/
theorem crcUnitComputesCrc32 : Obligations.CrcUnitComputesCrc32 := by
  refine ⟨fun s => ⟨readPort_crcState s, readPort_crcValue s⟩, execAll_crcInit_bytes,
    fun T D s t h => ?_⟩
  obtain ⟨u, hu, value⟩ := execAll_crcInit_bytes (T ++ D) s
  cases hu.symm.trans h
  rw [chunkBytes, value]

/-! ### Each unit's commands leave the other unit (R107) -/

/-- Only the framer elements are compared, so this also proves the agreement of two states that differ
elsewhere alone. -/
theorem State.sameFramer.refl (s : State) : s.sameFramer s :=
  ⟨rfl, rfl, rfl, rfl, rfl, rfl, rfl, rfl, rfl⟩

theorem State.sameFramer.symm {s t : State} (h : s.sameFramer t) : t.sameFramer s := by
  obtain ⟨mode, busy, done, err, count, len, type, crc, crcRx⟩ := h
  exact ⟨mode.symm, busy.symm, done.symm, err.symm, count.symm, len.symm, type.symm, crc.symm, crcRx.symm⟩

theorem State.sameFramer.trans {s t u : State} (h : s.sameFramer t) (h' : t.sameFramer u) :
    s.sameFramer u := by
  simp_all [State.sameFramer]

/-- A command that is none of the CRC unit's leaves `crc_state`. -/
theorem exec_crc_state {i : Instr} {s t : State} (h : exec i s = .next t)
    (hi : i.isCrcCommand = false) : t.crc_state = s.crc_state := by
  cases exec_wordEffect h with
  | crc _ c hc => rcases hc with rfl | ⟨b, rfl⟩ <;> nomatch hi
  | nop => rfl
  | clear => rfl
  | restart => rfl
  | absorbed => rfl
  | ended => rfl
  | rejected => rfl

/-- A command that is none of the framer's leaves the nine framer elements. -/
theorem exec_sameFramer {i : Instr} {s t : State} (h : exec i s = .next t)
    (hi : i.isFramerCommand = false) : s.sameFramer t := by
  cases exec_wordEffect h with
  | nop => exact .refl s
  | clear => exact .refl s
  | crc => exact .refl s
  | restart _ _ _ hr => rcases hr with rfl | rfl | rfl | rfl <;> nomatch hi
  | absorbed => nomatch hi
  | ended => nomatch hi
  | rejected _ hr => rcases hr with rfl | ⟨b, rfl⟩ <;> nomatch hi

/-- Settles O22: FR.BYTE is no command of the CRC unit. -/
theorem crcByteAbsorbsOneByte : Obligations.CrcByteAbsorbsOneByte := by
  refine ⟨exec_crcByte, fun b s => ?_, by decide, by decide, _, exec_crcByte _ _, by decide, by decide,
    by decide⟩
  obtain ⟨t, ht, -⟩ := exec_next (.frByte b) s
  exact ⟨t, ht, exec_crc_state ht rfl⟩

/-! ### What a command leaves in one unit depends on that unit alone (R107) -/

/-- What a command leaves in `crc_state` depends on `crc_state` alone. -/
theorem exec_crc_state_congr {i : Instr} {s s' t t' : State} (h : exec i s = .next t)
    (h' : exec i s' = .next t') (same : s.crc_state = s'.crc_state) : t.crc_state = t'.crc_state := by
  cases hi : i.isCrcCommand with
  | false => rw [exec_crc_state h hi, exec_crc_state h' hi, same]
  | true =>
    cases i with
    | crcInit => cases h; cases h'; rfl
    | crcByte b => cases h; cases h'; exact congrArg (upd · b) same
    | _ => nomatch hi

/-- The framer elements of `s` beside everything else of `r`. -/
def State.withRestOf (s r : State) : State :=
  { s with
    crc_state := r.crc_state, ill_sticky := r.ill_sticky, rej_sticky := r.rej_sticky, last := r.last
    cycles := r.cycles }

/-- A state is the framer of any state that agrees with it there, beside the rest of its own. -/
theorem State.sameFramer.eq_withRestOf {s t : State} (h : s.sameFramer t) : t = s.withRestOf t := by
  obtain ⟨mode, busy, done, err, count, len, type, crc, crcRx⟩ := h
  simp [State.withRestOf, *]

theorem absorbT_withRestOf (i : Nat) (b : Byte) (s r : State) :
    absorbT i b (s.withRestOf r) = (absorbT i b s).withRestOf r := by
  simp only [absorbT, apply_ite (State.withRestOf · r)]
  rfl

theorem absorbP_withRestOf (i : Nat) (b : Byte) (s r : State) :
    absorbP i b (s.withRestOf r) = (absorbP i b s).withRestOf r := by
  simp only [absorbP, apply_ite (State.withRestOf · r)]
  rfl

theorem absorbC_withRestOf (i : Nat) (b : Byte) (s r : State) :
    absorbC i b (s.withRestOf r) = (absorbC i b s).withRestOf r := by
  simp only [absorbC, apply_ite (State.withRestOf · r)]
  rfl

theorem absorb_withRestOf (i : Nat) (b : Byte) (s r : State) :
    absorb i b (s.withRestOf r) = (absorb i b s).withRestOf r := by
  obtain ⟨_, mode⟩ := s
  cases mode with
  | idle => rfl
  | parse => exact absorbP_withRestOf i b _ r
  | compose => exact absorbC_withRestOf i b _ r
  | type => exact absorbT_withRestOf i b _ r

theorem resolve_withRestOf (s r : State) : resolve (s.withRestOf r) = resolve s := rfl

/-- A session start and FR.ABORT write all nine framer elements and read none. -/
theorem sameFramer_of_restart (m : Mode) (busy : Bool) (s s' : State) :
    State.sameFramer
      { clearFramerData s with
        fr_mode := m, fr_busy := busy, fr_done := false, fr_err := errNone, last := 0 }
      { clearFramerData s' with
        fr_mode := m, fr_busy := busy, fr_done := false, fr_err := errNone, last := 0 } :=
  .refl _

/-- FR.BYTE's effect on the framer depends on the framer alone. -/
theorem exec_frByte_sameFramer {b : Byte} {s r t t' : State} (h : exec (.frByte b) s = .next t)
    (h' : exec (.frByte b) (s.withRestOf r) = .next t') : t.sameFramer t' := by
  cases busy : s.fr_busy with
  | true =>
    rw [exec_frByte_open busy] at h
    rw [exec_frByte_open (s := s.withRestOf r) busy, absorb_withRestOf] at h'
    cases h
    cases h'
    exact .refl _
  | false =>
    rw [exec_frByte_closed busy] at h
    rw [exec_frByte_closed (s := s.withRestOf r) busy] at h'
    cases h
    cases h'
    exact .refl _

/-- FR.END's effect on the framer depends on the framer alone. -/
theorem exec_frEnd_sameFramer {s r t t' : State} (h : exec .frEnd s = .next t)
    (h' : exec .frEnd (s.withRestOf r) = .next t') : t.sameFramer t' := by
  cases busy : s.fr_busy with
  | true =>
    rw [exec_frEnd_open busy] at h
    rw [exec_frEnd_open (s := s.withRestOf r) busy, resolve_withRestOf] at h'
    cases h
    cases h'
    exact .refl _
  | false =>
    rw [exec_frEnd_closed busy] at h
    rw [exec_frEnd_closed (s := s.withRestOf r) busy] at h'
    cases h
    cases h'
    exact .refl _

/-- What a command leaves in the framer depends on the framer elements alone. -/
theorem exec_sameFramer_congr {i : Instr} {s s' t t' : State} (h : exec i s = .next t)
    (h' : exec i s' = .next t') (same : s.sameFramer s') : t.sameFramer t' := by
  cases hi : i.isFramerCommand with
  | false => exact ((exec_sameFramer h hi).symm.trans same).trans (exec_sameFramer h' hi)
  | true =>
    rw [same.eq_withRestOf] at h'
    cases i with
    | frParse => cases h; cases h'; exact sameFramer_of_restart _ _ _ _
    | frCompose => cases h; cases h'; exact sameFramer_of_restart _ _ _ _
    | frType => cases h; cases h'; exact sameFramer_of_restart _ _ _ _
    | frAbort => cases h; cases h'; exact sameFramer_of_restart _ _ _ _
    | frByte b => exact exec_frByte_sameFramer h h'
    | frEnd => exact exec_frEnd_sameFramer h h'
    | _ => nomatch hi

/-- Two runs agree in the part of the state that `R` compares, the second with the commands left out that
do not touch that part: `R` is kept by a command that both runs take, and by one that only the first takes. -/
theorem execAll_filter_rel {p : Instr → Bool} {R : State → State → Prop}
    (both : ∀ {i s s' t t'}, exec i s = .next t → exec i s' = .next t' → R s s' → R t t')
    (skipped : ∀ {i s s' t}, exec i s = .next t → p i = false → R s s' → R t s')
    (is : List Instr) {s s' : State} (h : R s s') :
    ∃ t t', execAll is s = .next t ∧ execAll (is.filter p) s' = .next t' ∧ R t t' := by
  induction is generalizing s s' with
  | nil => exact ⟨s, s', rfl, rfl, h⟩
  | cons i is ih =>
    obtain ⟨u, hu, -⟩ := exec_next i s
    rw [execAll_cons hu]
    cases hp : p i with
    | false =>
      rw [List.filter_cons_of_neg (by simp [hp])]
      exact ih (skipped hu hp h)
    | true =>
      obtain ⟨u', hu', -⟩ := exec_next i s'
      rw [List.filter_cons_of_pos hp, execAll_cons hu']
      exact ih (both hu hu' h)

/-- Settles O24: each unit's part of the state is kept equal by the commands that both runs take, and left
by the commands of the other unit. -/
theorem crcUnitAndFramerAreIndependent : Obligations.CrcUnitAndFramerAreIndependent := by
  refine ⟨fun i s t h => ⟨exec_crc_state h, exec_sameFramer h⟩,
    fun i s s' t t' h h' => ⟨exec_crc_state_congr h h', exec_sameFramer_congr h h'⟩, fun is s => ?_⟩
  obtain ⟨t, u, ht, hu, crc⟩ := execAll_filter_rel (p := Instr.isCrcCommand)
    (R := fun s s' => s.crc_state = s'.crc_state) exec_crc_state_congr
    (fun h hp same => (exec_crc_state h hp).trans same) is (rfl : s.crc_state = s.crc_state)
  obtain ⟨t', v, ht', hv, framer⟩ := execAll_filter_rel (p := Instr.isFramerCommand)
    exec_sameFramer_congr (fun h hp same => (exec_sameFramer h hp).symm.trans same) is
    (State.sameFramer.refl s)
  cases ht.symm.trans ht'
  exact ⟨t, u, v, ht, hu, crc.symm, hv, framer.symm⟩

end Sys2Proof.Machine
end

section
/-! PROOFS of the statements on the framer's commands, one command at a time (42_framer.md rules R120 to R133):
what a session start and FR.ABORT write, what FR.BYTE and FR.END do by mode, and the moves between the control
states. -/

namespace Sys2Proof.Machine

/-! ### Session starts and FR.ABORT (R121 to R124, R133) -/

/-- The framer started anew: all nine elements written, none read (R121, R133). -/
def restarted (m : Mode) (busy : Bool) (s : State) : State :=
  { clearFramerData s with
    fr_mode := m, fr_busy := busy, fr_done := false, fr_err := errNone, last := 0 }

/-- The session-start commands and the modes they open (R122 to R124). -/
def Starts (i : Instr) (m : Mode) : Prop :=
  (i = .frParse ∧ m = .parse) ∨ (i = .frCompose ∧ m = .compose) ∨ (i = .frType ∧ m = .type)

theorem exec_sessionStart {i : Instr} {m : Mode} (h : Starts i m) (s : State) :
    exec i s = .next (restarted m true s) := by
  rcases h with ⟨rfl, rfl⟩ | ⟨rfl, rfl⟩ | ⟨rfl, rfl⟩ <;> rfl

theorem exec_frAbort (s : State) : exec .frAbort s = .next (restarted .idle false s) := rfl

/-- The low half of STATUS shows the framer's control elements alone (R43). -/
theorem statusWord_control (s : State) {n k : Nat} (h : n + k ≤ 16) :
    (statusWord s).extractLsb' n k =
      (fieldAt 0 s.fr_mode.code ||| bitAt 2 s.fr_busy ||| bitAt 3 s.fr_done ||| bitAt 4 (statusOk s)
        ||| fieldAt 8 s.fr_err).extractLsb' n k := by
  simp [statusWord, BitVec.extractLsb'_or, show n + k ≤ 17 by omega, show n + k ≤ 18 by omega, h]

/-- With no type byte received LETTERS_OK holds of none of them, and every other flag reads 0 (R44). -/
theorem readPort_flags_restarted (m : Mode) (busy : Bool) (s : State) :
    readPort (restarted m busy s) 0x5 = 0x00000001 := by
  show flagsWord { State.reset with fr_mode := m } = 0x00000001
  cases m <;> decide

/-- After a restart the low half of STATUS shows MODE and BUSY, and neither DONE, OK nor an error. -/
theorem readPort_status_restarted (m : Mode) (busy : Bool) (s : State) {n k : Nat} (h : n + k ≤ 16) :
    (readPort (restarted m busy s) 0x0).extractLsb' n k =
      (fieldAt 0 m.code ||| bitAt 2 busy).extractLsb' n k := by
  rw [readPort_status, statusWord_control _ h]
  simp [restarted, statusOk, errNone, bitAt, fieldAt]

/-- Settles O25: the examples are run. -/
theorem sessionStartOpensAFreshSession : Obligations.SessionStartOpensAFreshSession := by
  refine ⟨fun s i m h => ⟨_, exec_sessionStart h s, rfl, (statusWord_mode _).trans ?mode,
    (readPort_status_restarted m true s (by decide)).trans ?busy, statusWord_last _,
    readPort_flags_restarted m true s⟩, ?_, ?_, ?_⟩
  case mode => rcases h with ⟨rfl, rfl⟩ | ⟨rfl, rfl⟩ | ⟨rfl, rfl⟩ <;> rfl
  case busy => cases m <;> decide
  · exact ⟨_, rfl, by decide +kernel⟩
  · exact ⟨_, rfl, by decide +kernel⟩
  · exact ⟨_, rfl, by decide +kernel⟩

/-- Settles O34: FR.ABORT is a restart in mode IDLE that opens no session. -/
theorem abortReturnsTheFramerToReset : Obligations.AbortReturnsTheFramerToReset := by
  refine ⟨fun s => ⟨_, exec_frAbort s, rfl,
    (readPort_status_restarted .idle false s (by decide)).trans (by decide),
    readPort_flags_restarted .idle false s, ?_⟩, _, rfl, by decide, by decide⟩
  rintro ⟨⟨mode, busy, done⟩, err, count, len, type, crc, crcRx⟩
  simp [restarted, clearFramerData, mode, busy, done, err, count, len, type, crc, crcRx]

/-! ### FR.BYTE, by the mode of the open session (R125 to R128) -/

theorem absorb_idle {s : State} (h : s.fr_mode = .idle) (i : Nat) (b : Byte) : absorb i b s = s := by
  simp [absorb, h]

theorem absorb_parse {s : State} (h : s.fr_mode = .parse) (i : Nat) (b : Byte) :
    absorb i b s = absorbP i b s := by
  simp [absorb, h]

theorem absorb_compose {s : State} (h : s.fr_mode = .compose) (i : Nat) (b : Byte) :
    absorb i b s = absorbC i b s := by
  simp [absorb, h]

theorem absorb_type {s : State} (h : s.fr_mode = .type) (i : Nat) (b : Byte) :
    absorb i b s = absorbT i b s := by
  simp [absorb, h]

/-- Settles O26: an open session's mode says which rule absorbs the byte. -/
theorem frByteIsCountedOrRejected : Obligations.FrByteIsCountedOrRejected := by
  refine ⟨fun b s => exec_frByte_closed, fun b s busy => ?_, _, exec_frByte_closed rfl, rfl⟩
  refine ⟨_, exec_frByte_open busy, incCount_toNat _, ?frame, fun mode => ?_, fun mode => ?_,
    fun mode => ?_, fun mode => ?_⟩
  case frame => rw [absorb_frame]
  · rw [absorb_type mode]
  · rw [absorb_parse mode]
  · rw [absorb_compose mode]
  · rw [absorb_idle mode]

/-- Settles O27: the first four bytes are stored, each at its own place. -/
theorem frByteInATypeSession : Obligations.FrByteInATypeSession := by
  intro b s busy mode
  have answer := exec_frByte_open (b := b) busy
  rw [absorb_type mode, absorbT] at answer
  rcases Nat.lt_or_ge s.fr_count.toNat 4 with early | late
  · rw [if_pos early] at answer
    refine ⟨_, answer, rfl, incCount_toNat _, fun _ => ⟨?stored, fun j hj other => ?kept⟩,
      fun late => absurd early late.not_gt⟩
    case stored => rw [← typeByte_eq_extract _ early, typeByte_setTypeByte _ _ _ _ early early, if_pos rfl]
    case kept =>
      rw [← typeByte_eq_extract _ hj, typeByte_setTypeByte _ _ _ _ early hj, if_neg other,
        typeByte_eq_extract _ hj]
  · rw [if_neg late.not_gt] at answer
    exact ⟨_, answer, rfl, incCount_toNat _, fun early => absurd early late.not_gt, fun _ => rfl⟩

/-- A type word that holds the four bytes `W` is their big-endian value. -/
theorem HoldsTypeBytes.eq_beVal {v : Word} {W : List Byte} (h : HoldsTypeBytes v W)
    (hW : W.length = 4) : v = beVal W := by
  rw [← h.be32 hW, beVal_be32]

/-- Settles O28: the position picks the branch, and `parse_absorbs` says what whole slices leave. -/
theorem frByteInAParseSession : Obligations.FrByteInAParseSession := by
  refine ⟨fun b s busy mode => ?_, fun S s => ?_⟩
  · rw [exec_frByte_open busy, absorb_parse mode, absorbP]
    split_ifs <;> rfl
  · obtain ⟨t, ht, h⟩ := parse_absorbs S s
    refine ⟨t, ht, fun _ => h.len, fun whole => ⟨h.type.eq_beVal ?_, ?_, ?_⟩⟩
    · rw [window_length]
      omega
    · rw [h.len]
      exact h.crc
    · rw [h.len]
      exact h.crc_rx

/-- Settles O29: the position picks the branch, and `compose_absorbs` says what whole slices leave. -/
theorem frByteInAComposeSession : Obligations.FrByteInAComposeSession := by
  refine ⟨fun b s busy mode => ?_, fun S s => ?_⟩
  · rw [exec_frByte_open busy, absorb_compose mode, absorbC]
    split_ifs with early
    · rfl
    · rw [BitVec.ofNat_add, BitVec.ofNat_toNat, BitVec.setWidth_eq]
      rfl
  · obtain ⟨t, ht, h⟩ := compose_absorbs S s
    exact ⟨t, ht, h.crc_rx, fun _ => ⟨h.crc, by rw [h.len, BitVec.toNat_ofNat]⟩⟩

/-! ### FR.END, by the mode of the open session (R129 to R132, R141) -/

theorem resolve_idle {s : State} (h : s.fr_mode = .idle) : resolve s = errNone := by
  simp [resolve, h]

theorem resolve_parse {s : State} (h : s.fr_mode = .parse) : resolve s = resolveP s := by
  simp [resolve, h]

theorem resolve_compose {s : State} (h : s.fr_mode = .compose) : resolve s = resolveC s := by
  simp [resolve, h]

theorem resolve_type {s : State} (h : s.fr_mode = .type) : resolve s = resolveT s := by
  simp [resolve, h]

@[simp] theorem closed_fr_mode (s : State) : (closed s).fr_mode = s.fr_mode := rfl
@[simp] theorem closed_fr_err (s : State) : (closed s).fr_err = resolve s := rfl
@[simp] theorem closed_fr_count (s : State) : (closed s).fr_count = s.fr_count := rfl
@[simp] theorem closed_fr_len (s : State) : (closed s).fr_len = s.fr_len := rfl
@[simp] theorem closed_fr_type (s : State) : (closed s).fr_type = s.fr_type := rfl
@[simp] theorem closed_fr_crc_rx (s : State) : (closed s).fr_crc_rx = s.fr_crc_rx := rfl
@[simp] theorem closed_frCrcCalc (s : State) : frCrcCalc (closed s) = frCrcCalc s := rfl
@[simp] theorem closed_typeRcvd (s : State) : typeRcvd (closed s) = typeRcvd s := rfl

/-- FR.END shows in STATUS alone (R129, R144). -/
theorem readPort_closed (s : State) {idx : ReadIndex} (h : idx ≠ 0) :
    readPort (closed s) idx = readPort s idx := by
  unfold readPort
  split
  case h_1 zero => exact absurd (BitVec.eq_of_toNat_eq zero) h
  all_goals rfl

theorem readPort_crcRx (s : State) : readPort s 0x6 = s.fr_crc_rx := rfl

theorem readPort_crcCalc (s : State) : readPort s 0x7 = frCrcCalc s := rfl

/-- OK reads 1 after FR.END exactly when the result is NONE (R43). -/
theorem readPort_ok_closed (s : State) :
    (readPort (closed s) 0x0).getLsbD 4 = true ↔ (closed s).fr_err = 0 := by
  rw [readPort_status, statusWord_ok, statusOk_iff]
  exact and_iff_right rfl

/-- Settles O30: a closed session is not open, and an empty slice fails the first check of every mode. -/
theorem frEndClosesTheSession : Obligations.FrEndClosesTheSession := by
  refine ⟨fun s => exec_frEnd_closed, fun s busy => ?_, fun s busy empty => ?_, _, rfl, by decide⟩
  · exact ⟨closed s, exec_frEnd_open busy, rfl, readPort_ok_closed s, resolve_type, resolve_parse,
      resolve_compose, resolve_idle, exec_frEnd_closed rfl⟩
  · refine ⟨closed s, exec_frEnd_open busy, fun mode => (resolve_parse mode).trans ?_,
      fun mode => (resolve_compose mode).trans ?_, fun mode => (resolve_type mode).trans ?_⟩
    · simp [resolveP, empty, FrameError.code]
    · simp [resolveC, empty, FrameError.code]
    · simp [resolveT, empty, FrameError.code]

/-- Settles O32: the expected total is below the saturated count. -/
theorem parseSessionResult : Obligations.ParseSessionResult := by
  intro s busy mode
  have small := s.fr_len.isLt
  refine ⟨?_, fun whole => ?_, fun saturated t ht => ?_⟩
  · rw [exec_frEnd_open busy, resolve_parse mode, resolveP]
    simp only [Bool.not_eq_true']
    rfl
  · rw [typeRcvd_parse mode]
    omega
  · cases ht.symm.trans (exec_frEnd_open busy)
    show resolve s = 2
    rw [resolve_parse mode, resolveP, if_neg (by omega), if_pos (by omega)]
    rfl

/-- What a result says of the session it closes (R130 to R132, R141). -/
inductive Explains (s : State) : BitVec 4 → Prop
  | none : Explains s 0
  | tooShort (few : s.fr_count.toNat < 12) : Explains s 1
  | lengthMismatch (other : s.fr_count.toNat ≠ 12 + s.fr_len.toNat) : Explains s 2
  | invalidTypeCode (letters : lettersOk s = false) : Explains s 3
  | crcMismatch (differ : frCrcCalc s ≠ s.fr_crc_rx) : Explains s 4
  | invalidLength (count : (s.fr_mode = .type ∧ s.fr_count.toNat ≠ 4) ∨
      (s.fr_mode = .compose ∧ s.fr_count.toNat < 4)) : Explains s 5
  | dataTooLong : Explains s 6

theorem resolve_explains (s : State) : Explains s (resolve s) := by
  cases mode : s.fr_mode with
  | idle =>
    rw [resolve_idle mode]
    exact .none
  | parse =>
    rw [resolve_parse mode, resolveP]
    split_ifs with few other letters differ
    · exact .tooShort few
    · exact .lengthMismatch other
    · exact .invalidTypeCode (by simpa using letters)
    · exact .crcMismatch differ
    · exact .none
  | compose =>
    rw [resolve_compose mode, resolveC]
    split_ifs with few letters long
    · exact .invalidLength (.inr ⟨mode, few⟩)
    · exact .invalidTypeCode (by simpa using letters)
    · exact .dataTooLong
    · exact .none
  | type =>
    rw [resolve_type mode, resolveT]
    split_ifs with other letters
    · exact .invalidLength (.inl ⟨mode, other⟩)
    · exact .invalidTypeCode (by simpa using letters)
    · exact .none

/-- Where LETTERS_OK reads 0 there is a lowest received byte that is no letter (R141). -/
theorem exists_lowest_nonLetter {s : State} (h : lettersOk s = false) :
    ∃ j < typeRcvd s, isLetter (typeByte s.fr_type j) = false ∧
      ∀ k < j, isLetter (typeByte s.fr_type k) = true := by
  have some : ∃ j, j < typeRcvd s ∧ isLetter (typeByte s.fr_type j) = false := by
    simpa [lettersOk] using h
  obtain ⟨received, noLetter⟩ := Nat.find_spec some
  refine ⟨Nat.find some, received, noLetter, fun k below => ?_⟩
  simpa [below.trans received] using Nat.find_min some below

/-- Settles O43: FR.END writes no element that explains its result. -/
theorem errorComesWithItsData : Obligations.ErrorComesWithItsData := by
  intro s t busy h
  obtain rfl : closed s = t := Host.Outcome.next.inj ((exec_frEnd_open busy).symm.trans h)
  have why := resolve_explains s
  simp only [closed_fr_mode, closed_fr_err, closed_fr_count, closed_fr_len, closed_fr_type,
    closed_typeRcvd, readPort_crcRx, readPort_crcCalc, closed_fr_crc_rx, closed_frCrcCalc]
  generalize resolve s = e at why ⊢
  cases why with
  | none => simp
  | tooShort few => simpa using few
  | lengthMismatch other => simpa using other
  | invalidTypeCode letters => simpa using exists_lowest_nonLetter letters
  | crcMismatch differ => simpa using differ
  | invalidLength count => simpa using count
  | dataTooLong => simp

/-! ### The control states (R120) -/

theorem State.isIdle.not_busy {s : State} (h : s.isIdle) : s.fr_busy = false := by
  obtain ⟨-, busy, -⟩ := h
  exact busy

theorem State.isDone.not_busy {m : Mode} {e : BitVec 4} {s : State} (h : s.isDone m e) :
    s.fr_busy = false := by
  obtain ⟨-, -, busy, -⟩ := h
  exact busy

theorem restarted_isOpen {i : Instr} {m : Mode} (h : Starts i m) (s : State) :
    (restarted m true s).isOpen m := by
  refine ⟨?_, rfl, rfl, rfl⟩
  rcases h with ⟨-, rfl⟩ | ⟨-, rfl⟩ | ⟨-, rfl⟩ <;> decide

theorem State.isOpen.exec_frByte {m : Mode} {s : State} (h : s.isOpen m) (b : Byte) :
    ∃ t, exec (.frByte b) s = .next t ∧ t.isOpen m ∧ t.last = 0 := by
  obtain ⟨notIdle, mode, busy, done⟩ := h
  rw [exec_frByte_open busy, absorb_frame]
  exact ⟨_, rfl, ⟨notIdle, mode, busy, done⟩, rfl⟩

theorem State.isOpen.exec_frEnd {m : Mode} {s : State} (h : s.isOpen m) :
    ∃ t, exec .frEnd s = .next t ∧ t.isDone m (resolve s) ∧ t.last = 0 := by
  obtain ⟨notIdle, mode, busy, -⟩ := h
  exact ⟨_, exec_frEnd_open busy, ⟨notIdle, mode, rfl, rfl, rfl⟩, rfl⟩

/-- The framer is in one of the three control states. -/
def State.InControlState (s : State) : Prop :=
  s.isIdle ∨ (∃ m, s.isOpen m) ∨ ∃ m e, s.isDone m e

/-- The control state is one of the framer elements. -/
theorem State.InControlState.of_sameFramer {s t : State} (h : s.InControlState)
    (same : s.sameFramer t) : t.InControlState := by
  rw [same.eq_withRestOf]
  exact h

theorem exec_inControlState {i : Instr} {s t : State} (ht : exec i s = .next t)
    (h : s.InControlState) : t.InControlState := by
  have started {m : Mode} (start : Starts i m) : t.InControlState := by
    cases ht.symm.trans (exec_sessionStart start s)
    exact .inr (.inl ⟨m, restarted_isOpen start s⟩)
  have rejected (only : exec i s = .next { s with rej_sticky := true, last := 2 }) :
      t.InControlState := by
    cases ht.symm.trans only
    exact h
  cases framer : i.isFramerCommand with
  | false => exact h.of_sameFramer (exec_sameFramer ht framer)
  | true =>
    cases i with
    | frParse => exact started (.inl ⟨rfl, rfl⟩)
    | frCompose => exact started (.inr (.inl ⟨rfl, rfl⟩))
    | frType => exact started (.inr (.inr ⟨rfl, rfl⟩))
    | frAbort =>
      cases ht
      exact .inl ⟨rfl, rfl, rfl⟩
    | frByte b =>
      rcases h with idle | ⟨m, opened⟩ | ⟨m, e, done⟩
      · exact rejected (exec_frByte_closed idle.not_busy)
      · obtain ⟨u, hu, stays, -⟩ := opened.exec_frByte b
        cases ht.symm.trans hu
        exact .inr (.inl ⟨m, stays⟩)
      · exact rejected (exec_frByte_closed done.not_busy)
    | frEnd =>
      rcases h with idle | ⟨m, opened⟩ | ⟨m, e, done⟩
      · exact rejected (exec_frEnd_closed idle.not_busy)
      · obtain ⟨u, hu, closes, -⟩ := opened.exec_frEnd
        cases ht.symm.trans hu
        exact .inr (.inr ⟨m, _, closes⟩)
      · exact rejected (exec_frEnd_closed done.not_busy)
    | _ => nomatch framer

/-- A word that is no command of the framer leaves the nine framer elements. -/
theorem stepWord_sameFramer {w : Word} {s t : State}
    (other : ∀ i, decode w = .ok i → i.isFramerCommand = false) (ht : stepWord w s = .next t) :
    s.sameFramer t := by
  cases hd : decode w with
  | error e =>
    rw [stepWord_of_decode_error hd] at ht
    cases ht
    exact .refl s
  | ok i =>
    rw [stepWord_of_decode_ok hd] at ht
    exact exec_sameFramer ht (other i hd)

theorem stepWord_inControlState {w : Word} {s t : State} (ht : stepWord w s = .next t)
    (h : s.InControlState) : t.InControlState := by
  cases hd : decode w with
  | error e => exact h.of_sameFramer (stepWord_sameFramer (by simp [hd]) ht)
  | ok i =>
    rw [stepWord_of_decode_ok hd] at ht
    exact exec_inControlState ht h

theorem step_inControlState {s t : State} (ht : step s = .next t) (h : s.InControlState) :
    t.InControlState := by
  cases rst : s.pins.rst with
  | true =>
    cases ht.symm.trans (step_of_rst rst)
    exact .inl ⟨rfl, rfl, rfl⟩
  | false =>
    cases valid : s.pins.cmd_valid with
    | true => exact stepWord_inControlState ((step_of_word_offered rst valid).symm.trans ht) h
    | false =>
      cases ht.symm.trans (step_of_no_word rst valid)
      exact h

/-- What every step keeps, every run keeps. -/
theorem run_keeps {P : State → Prop} (step_keeps : ∀ {s t}, step s = .next t → P s → P t) {n : Nat}
    {s t : State} (ht : Host.Core.run core n s = .next t) (h : P s) : P t := by
  induction n generalizing s with
  | zero =>
    cases ht
    exact h
  | succ n ih =>
    obtain ⟨u, hu, -⟩ := everyStateHasANextState s
    exact ih ((run_succ hu).symm.trans ht) (step_keeps hu h)

/-- Settles O35: the rows of the table say that every step keeps the framer in the three control states. -/
theorem controlStatesMoveByTheTable : Obligations.ControlStatesMoveByTheTable := by
  refine ⟨fun s => ⟨?_, ?_, ?_, ?_⟩, fun s idle => ⟨fun b => ?_, ?_⟩,
    fun s m opened => ⟨opened.exec_frByte, opened.exec_frEnd⟩, fun s m e done => ⟨fun b => ?_, ?_⟩,
    fun w s t => stepWord_sameFramer, fun cs n t ht => ?_⟩
  · exact ⟨_, exec_sessionStart (.inl ⟨rfl, rfl⟩) s, restarted_isOpen (.inl ⟨rfl, rfl⟩) s⟩
  · exact ⟨_, exec_sessionStart (.inr (.inl ⟨rfl, rfl⟩)) s,
      restarted_isOpen (.inr (.inl ⟨rfl, rfl⟩)) s⟩
  · exact ⟨_, exec_sessionStart (.inr (.inr ⟨rfl, rfl⟩)) s,
      restarted_isOpen (.inr (.inr ⟨rfl, rfl⟩)) s⟩
  · exact ⟨_, exec_frAbort s, rfl, rfl, rfl⟩
  · exact ⟨_, exec_frByte_closed idle.not_busy, idle, rfl⟩
  · exact ⟨_, exec_frEnd_closed idle.not_busy, idle, rfl⟩
  · exact ⟨_, exec_frByte_closed done.not_busy, done, rfl⟩
  · exact ⟨_, exec_frEnd_closed done.not_busy, done, rfl⟩
  · exact run_keeps step_inControlState ht (.inl ⟨rfl, rfl, rfl⟩)

end Sys2Proof.Machine
end

section
/-! PROOFS of the statements on whole sessions against the document's operations (42_framer.md rules R130 to
R132 and R136 to R138): what FR.END records is the code of what the document's operation answers on the slice,
and the registers hold what it returns. -/

namespace Sys2Proof.Machine

/-! ### Windows of a slice -/

theorem window_all {S : List Byte} {m : Nat} (h : S.length ≤ m) : window S 0 m = S :=
  List.take_of_length_le h

theorem window_append_window (S : List Byte) (a m n : Nat) :
    window S a m ++ window S (a + m) n = window S a (m + n) := by
  rw [window, window, window, List.take_add, List.drop_drop]

/-! ### What FR.END records is the document's answer (R130 to R132) -/

theorem OpenOn.mode {m : Mode} {S : List Byte} {s u : State} (h : OpenOn m S s u) : u.fr_mode = m := by
  obtain ⟨-, mode, -, -⟩ := h.isOpen
  exact mode

theorem OpenOn.busy {m : Mode} {S : List Byte} {s u : State} (h : OpenOn m S s u) :
    u.fr_busy = true := by
  obtain ⟨-, -, busy, -⟩ := h.isOpen
  exact busy

theorem ParsedSoFar.lettersOk_eq {S : List Byte} {s u : State} (h : ParsedSoFar S s u) :
    lettersOk u = (window S 4 4).all isLetter := by
  refine lettersOk_eq_all h.type ?_
  rw [typeRcvd_parse h.mode, h.count, window_length]
  omega

theorem ComposedSoFar.lettersOk_eq {S : List Byte} {s u : State} (h : ComposedSoFar S s u) :
    lettersOk u = (window S 0 4).all isLetter := by
  refine lettersOk_eq_all h.type ?_
  rw [typeRcvd_compose_or_type (.inl h.mode), h.count, window_length]
  omega

theorem TypedSoFar.lettersOk_eq {S : List Byte} {s u : State} (h : TypedSoFar S s u) :
    lettersOk u = (window S 0 4).all isLetter := by
  refine lettersOk_eq_all h.type ?_
  rw [typeRcvd_compose_or_type (.inr h.mode), h.count, window_length]
  omega

theorem ParsedSoFar.frCrcCalc_eq {S : List Byte} {s u : State} (h : ParsedSoFar S s u) :
    frCrcCalc u = crc32 (window S 4 4 ++ window S 8 u.fr_len.toNat) := by
  rw [window_append_window, frCrcCalc, h.crc, h.len, crc32]

/-- The steps of the document's `Chunk::parse` test what the steps of R131 test: the counter saturates above
every expected total. -/
theorem ParsedSoFar.resolve_eq {S : List Byte} {s u : State} (h : ParsedSoFar S s u) :
    resolve u = docErrCode (docChunkParse S) := by
  have count := h.count
  have small := u.fr_len.isLt
  have few : u.fr_count.toNat < 12 ↔ S.length < 12 := by omega
  have other : u.fr_count.toNat ≠ 12 + u.fr_len.toNat ↔ S.length ≠ 8 + u.fr_len.toNat + 4 := by omega
  have len : beVal (S.take 4) = u.fr_len := h.len.symm
  rw [resolve_parse h.mode, resolveP, h.lettersOk_eq, h.frCrcCalc_eq, h.crc_rx, ← h.len]
  simp only [few, other, window]
  unfold docChunkParse
  simp only [len, apply_ite docErrCode]
  rfl

theorem ComposedSoFar.resolve_eq {S : List Byte} {s u : State} (h : ComposedSoFar S s u) :
    resolve u = docErrCode (docCompose S) := by
  have count := h.count
  have few : u.fr_count.toNat < 4 ↔ S.length < 4 := by omega
  have long : u.fr_count.toNat - 4 > 2 ^ 32 - 1 ↔ (S.drop 4).length > 2 ^ 32 - 1 := by
    rw [List.length_drop]
    omega
  rw [resolve_compose h.mode, resolveC, h.lettersOk_eq]
  simp only [few, long, window, List.drop_zero]
  simp only [docCompose, apply_ite docErrCode]
  rfl

theorem TypedSoFar.resolve_eq {S : List Byte} {s u : State} (h : TypedSoFar S s u) :
    resolve u = docErrCode (docTypeParseStr S) := by
  have count := h.count
  have whole : u.fr_count.toNat ≠ 4 ↔ S.length ≠ 4 := by omega
  rw [resolve_type h.mode, resolveT, h.lettersOk_eq]
  simp only [whole]
  by_cases four : S.length = 4
  · rw [if_neg (not_not_intro four), window_all four.le, docTypeParseStr, if_pos four, docTypeParse]
    cases S.all isLetter <;> rfl
  · rw [if_pos four, docTypeParseStr, if_neg four]
    rfl

/-! ### The document's answers on slices -/

/-- A chunk as the document's operations make it (R54, R130). -/
structure Chunk.Valid (c : Chunk) : Prop where
  type_length : c.chunkType.length = 4
  letters : c.chunkType.all isLetter = true
  data_length : c.length.toNat = c.data.length
  crc : c.crc = crc32 (c.chunkType ++ c.data)

theorem FrameError.code_ne_zero (e : FrameError) : e.code ≠ 0 := by
  cases e <;> decide

theorem docErrCode_eq_zero_iff {α : Type} {r : Except FrameError α} :
    docErrCode r = 0 ↔ ∃ a, r = .ok a := by
  cases r with
  | ok a => exact ⟨fun _ => ⟨a, rfl⟩, fun _ => rfl⟩
  | error e => exact ⟨fun h => absurd h e.code_ne_zero, nofun⟩

theorem docTypeParseStr_eq_ok_iff {S T : List Byte} :
    docTypeParseStr S = .ok T ↔ S.length = 4 ∧ S.all isLetter = true ∧ T = S := by
  unfold docTypeParseStr docTypeParse
  split_ifs with four letters
  · simp [four, letters, eq_comm]
  · simp [letters]
  · simp [four]

theorem docChunkParse_short {S : List Byte} (h : S.length < 12) :
    docChunkParse S = .error .tooShort :=
  if_pos h

theorem docChunkParse_mismatch {S : List Byte} (enough : 12 ≤ S.length)
    (other : S.length ≠ 12 + (beVal (window S 0 4)).toNat) :
    docChunkParse S = .error .lengthMismatch :=
  (if_neg enough.not_gt).trans (if_pos fun same => other (by rw [window, List.drop_zero]; omega))

/-- The parts of a slice that is made of a length field, a type with data of that length, and a CRC field. -/
theorem window_fields {n x : Word} {M S : List Byte} (h : M.length = 4 + n.toNat)
    (hS : S = be32 n ++ M ++ be32 x) :
    window S 0 4 = be32 n ∧ window S 4 4 = M.take 4 ∧ window S 8 n.toNat = M.drop 4 ∧
      window S (8 + n.toNat) 4 = be32 x := by
  have body : S.drop 4 = M ++ be32 x := by
    rw [hS, List.append_assoc, List.drop_left' (be32_length n)]
  refine ⟨?_, ?_, ?_, ?_⟩
  · rw [window, List.drop_zero, hS, List.append_assoc, List.take_left' (be32_length n)]
  · rw [window, body, List.take_append_of_le_length (by omega)]
  · rw [window, ← List.drop_drop (i := 4) (j := 4), body, List.drop_append_of_le_length (by omega),
      List.take_left' (by rw [List.length_drop]; omega)]
  · rw [window, show 8 + n.toNat = 4 + M.length by omega, ← List.drop_drop, body, List.drop_left]
    rfl

/-- On such a slice `Chunk::parse` reaches its last two checks. -/
theorem docChunkParse_fields {n x : Word} {M : List Byte} (h : M.length = 4 + n.toNat) :
    docChunkParse (be32 n ++ M ++ be32 x) =
      if !(M.take 4).all isLetter then .error .invalidTypeCode
      else if crc32 M ≠ x then .error .crcMismatch
      else .ok { length := n, chunkType := M.take 4, data := M.drop 4, crc := x } := by
  obtain ⟨len, type, data, crc⟩ := window_fields h (x := x) rfl
  have total : (be32 n ++ M ++ be32 x).length = 8 + n.toNat + 4 := by
    simp only [List.length_append, be32_length]
    omega
  simp only [window, List.drop_zero] at len type data crc
  unfold docChunkParse
  simp only [len, beVal_be32, type, data, crc, List.take_append_drop]
  rw [if_neg (by omega), if_neg (not_not_intro total)]

theorem eq_fields_of_length {S : List Byte} (h : S.length = 12 + (beVal (window S 0 4)).toNat) :
    ∃ n x M, M.length = 4 + n.toNat ∧ S = be32 n ++ M ++ be32 x := by
  generalize len : beVal (window S 0 4) = n at h
  refine ⟨n, beVal (window S (8 + n.toNat) 4), window S 4 (4 + n.toNat), ?_, ?_⟩
  · rw [window_length]
    omega
  · rw [← len, be32_beVal_of_length (by rw [window_length]; omega), len,
      be32_beVal_of_length (by rw [window_length]; omega), window_append_window S 0 4,
      show 8 + n.toNat = 0 + (4 + (4 + n.toNat)) by omega, window_append_window, window_all (by omega)]

theorem Chunk.toBytes_eq_fields (c : Chunk) :
    c.toBytes = be32 c.length ++ (c.chunkType ++ c.data) ++ be32 c.crc := by
  simp [Chunk.toBytes]

theorem Chunk.Valid.body_length {c : Chunk} (h : c.Valid) :
    (c.chunkType ++ c.data).length = 4 + c.length.toNat := by
  rw [List.length_append, h.type_length, h.data_length]

/-- `Chunk::parse` answers a chunk on the bytes of that chunk and on no others (R134). -/
theorem docChunkParse_eq_ok_iff {S : List Byte} {c : Chunk} :
    docChunkParse S = .ok c ↔ c.Valid ∧ S = c.toBytes := by
  constructor
  · intro h
    rcases Nat.lt_or_ge S.length 12 with short | enough
    · rw [docChunkParse_short short] at h
      nomatch h
    by_cases total : S.length = 12 + (beVal (window S 0 4)).toNat
    · obtain ⟨n, x, M, hM, rfl⟩ := eq_fields_of_length total
      rw [docChunkParse_fields hM] at h
      split_ifs at h with letters crc
      cases h
      refine ⟨⟨?_, by simpa using letters, ?_, ?_⟩, ?_⟩
      · simp [hM]
      · simp [hM]
      · simpa using (not_not.mp crc).symm
      · simp [Chunk.toBytes_eq_fields]
    · rw [docChunkParse_mismatch enough total] at h
      nomatch h
  · rintro ⟨valid, rfl⟩
    rw [Chunk.toBytes_eq_fields, docChunkParse_fields valid.body_length,
      List.take_left' valid.type_length, List.drop_left' valid.type_length, valid.letters,
      ← valid.crc]
    simp

/-- The checks of D11 pass on the type and data of a chunk and on nothing else (R132). -/
theorem docCompose_eq_ok_iff {S : List Byte} {c : Chunk} :
    docCompose S = .ok c ↔ c.Valid ∧ S = c.chunkType ++ c.data := by
  unfold docCompose
  constructor
  · intro h
    split_ifs at h with few letters long
    cases h
    refine ⟨⟨?_, by simpa [docChunkNew] using letters, ?_, rfl⟩, (List.take_append_drop 4 S).symm⟩
    · simp only [docChunkNew, List.length_take]
      omega
    · simp only [docChunkNew, BitVec.toNat_ofNat]
      exact Nat.mod_eq_of_lt (by omega)
  · rintro ⟨valid, rfl⟩
    have small := c.length.isLt
    have length := valid.body_length
    rw [if_neg (by omega), List.take_left' valid.type_length, List.drop_left' valid.type_length,
      valid.letters, ← valid.data_length, if_neg (by simp), if_neg (by omega), docChunkNew, ← valid.crc,
      ← valid.data_length, BitVec.ofNat_toNat, BitVec.setWidth_eq]

theorem Chunk.Valid.toBytes_eq_chunkBytes {c : Chunk} (h : c.Valid) :
    c.toBytes = chunkBytes c.chunkType c.data := by
  rw [Chunk.toBytes, chunkBytes, ← h.crc, ← h.data_length, BitVec.ofNat_toNat, BitVec.setWidth_eq]

theorem docChunkNew_valid {T D : List Byte} (four : T.length = 4) (letters : T.all isLetter = true)
    (small : D.length ≤ 2 ^ 32 - 1) : (docChunkNew T D).Valid where
  type_length := four
  letters := letters
  data_length := Nat.mod_eq_of_lt (by omega)
  crc := rfl

/-! ### The registers hold the document's answer (R126 to R128) -/

/-- FR_LEN, FR_TYPE and FR_CRC_CALC are those of the chunk. -/
structure HoldsChunk (c : Chunk) (t : State) : Prop where
  len : t.fr_len = c.length
  type : be32 t.fr_type = c.chunkType
  crc : frCrcCalc t = c.crc

/-- FR.END keeps the chunk held. -/
theorem HoldsChunk.closed {c : Chunk} {u : State} (h : HoldsChunk c u) :
    HoldsChunk c (Machine.closed u) :=
  ⟨h.len, h.type, h.crc⟩

theorem Chunk.Valid.window_toBytes {c : Chunk} (h : c.Valid) :
    window c.toBytes 0 4 = be32 c.length ∧ window c.toBytes 4 4 = c.chunkType ∧
      window c.toBytes 8 c.length.toNat = c.data ∧
      window c.toBytes (8 + c.length.toNat) 4 = be32 c.crc := by
  have parts := window_fields h.body_length c.toBytes_eq_fields
  rwa [List.take_left' h.type_length, List.drop_left' h.type_length] at parts

theorem ParsedSoFar.holdsChunk {c : Chunk} {s u : State} (h : ParsedSoFar c.toBytes s u)
    (valid : c.Valid) : HoldsChunk c u ∧ u.fr_crc_rx = c.crc := by
  obtain ⟨len, type, data, crc⟩ := valid.window_toBytes
  have hlen : u.fr_len = c.length := by rw [h.len, len, beVal_be32]
  refine ⟨⟨hlen, ?_, ?_⟩, ?_⟩
  · rw [h.type.be32 (by rw [type, valid.type_length]), type]
  · rw [h.frCrcCalc_eq, hlen, type, data, valid.crc]
  · rw [h.crc_rx, ← h.len, hlen, crc, beVal_be32]

theorem ComposedSoFar.holdsChunk {c : Chunk} {s u : State}
    (h : ComposedSoFar (c.chunkType ++ c.data) s u) (valid : c.Valid) : HoldsChunk c u where
  len := by
    rw [h.len, valid.body_length, Nat.add_sub_cancel_left, BitVec.ofNat_toNat, BitVec.setWidth_eq]
  type := by
    have type : window (c.chunkType ++ c.data) 0 4 = c.chunkType := List.take_left' valid.type_length
    rw [h.type.be32 (by rw [type, valid.type_length]), type]
  crc := by
    rw [frCrcCalc, h.crc, valid.crc, crc32]

/-- A PARSE session that ends OK was on the bytes of the chunk that its registers hold. -/
theorem parseSession_ok {S : List Byte} {s t : State} (ht : execAll (parseSession S) s = .next t)
    (ok : t.fr_err = 0) :
    ∃ c : Chunk, c.Valid ∧ S = c.toBytes ∧ HoldsChunk c t ∧ t.fr_crc_rx = c.crc := by
  obtain ⟨u, h, hu⟩ := parseSession_answers S s
  cases ht.symm.trans hu
  obtain ⟨c, hc⟩ := docErrCode_eq_zero_iff.mp (h.resolve_eq.symm.trans ok)
  obtain ⟨valid, rfl⟩ := docChunkParse_eq_ok_iff.mp hc
  obtain ⟨holds, crcRx⟩ := h.holdsChunk valid
  exact ⟨c, valid, rfl, holds.closed, crcRx⟩

/-- A PARSE session on the bytes of a chunk ends OK and holds it. -/
theorem Chunk.Valid.parseSession_toBytes {c : Chunk} (valid : c.Valid) (s : State) :
    ∃ t, execAll (parseSession c.toBytes) s = .next t ∧ t.fr_err = 0 ∧ HoldsChunk c t ∧
      t.fr_crc_rx = c.crc := by
  obtain ⟨u, h, hu⟩ := parseSession_answers c.toBytes s
  obtain ⟨holds, crcRx⟩ := h.holdsChunk valid
  refine ⟨closed u, hu, ?_, holds.closed, crcRx⟩
  rw [closed_fr_err, h.resolve_eq, docChunkParse_eq_ok_iff.mpr ⟨valid, rfl⟩]
  rfl

/-- A COMPOSE session that ends OK was on the type and data of the chunk that its registers hold. -/
theorem composeSession_ok {S : List Byte} {s t : State}
    (ht : execAll (composeSession S) s = .next t) (ok : t.fr_err = 0) :
    ∃ c : Chunk, c.Valid ∧ S = c.chunkType ++ c.data ∧ HoldsChunk c t := by
  obtain ⟨u, h, hu⟩ := composeSession_answers S s
  cases ht.symm.trans hu
  obtain ⟨c, hc⟩ := docErrCode_eq_zero_iff.mp (h.resolve_eq.symm.trans ok)
  obtain ⟨valid, rfl⟩ := docCompose_eq_ok_iff.mp hc
  exact ⟨c, valid, rfl, (h.holdsChunk valid).closed⟩

/-- A COMPOSE session on the type and data of a chunk ends OK and holds it. -/
theorem Chunk.Valid.composeSession_body {c : Chunk} (valid : c.Valid) (s : State) :
    ∃ t, execAll (composeSession (c.chunkType ++ c.data)) s = .next t ∧ t.fr_err = 0 ∧
      HoldsChunk c t := by
  obtain ⟨u, h, hu⟩ := composeSession_answers (c.chunkType ++ c.data) s
  refine ⟨closed u, hu, ?_, (h.holdsChunk valid).closed⟩
  rw [closed_fr_err, h.resolve_eq, docCompose_eq_ok_iff.mpr ⟨valid, rfl⟩]
  rfl

theorem TypedSoFar.be32_type {S : List Byte} {s u : State} (h : TypedSoFar S s u)
    (four : S.length = 4) : be32 u.fr_type = S := by
  have all : window S 0 4 = S := window_all four.le
  rw [h.type.be32 (by rw [all, four]), all]

/-- Settles O31: with four bytes `parse_str` only tests the letters. -/
theorem typeSessionResult : Obligations.TypeSessionResult := by
  refine ⟨fun s busy mode => ?_, fun S s => ?_⟩
  · rw [exec_frEnd_open busy, resolve_type mode, resolveT]
    simp only [Bool.not_eq_true']
    rfl
  · obtain ⟨u, h, hu⟩ := typeSession_answers S s
    refine ⟨closed u, hu, h.resolve_eq, fun four => ⟨?_, ?_⟩⟩
    · rw [closed_fr_err, h.resolve_eq, docTypeParseStr, if_pos four, docTypeParse]
      split_ifs
      · exact .inl rfl
      · exact .inr rfl
    · rw [closed_fr_type, ← beVal_be32 u.fr_type, h.be32_type four]

theorem readPort_len (s : State) : readPort s 0x3 = s.fr_len := rfl

theorem readPort_type (s : State) : readPort s 0x4 = s.fr_type := rfl

/-- Settles O33: where the checks pass the slice is the type and data of a chunk. -/
theorem composeSessionResult : Obligations.ComposeSessionResult := by
  refine ⟨fun s busy mode => ?_, fun S s => ?_⟩
  · rw [exec_frEnd_open busy, resolve_compose mode, resolveC]
    simp only [Bool.not_eq_true']
    rfl
  · obtain ⟨t, ht⟩ := execAll_next (composeSession S) s
    refine ⟨t, ht, fun ok => ?_⟩
    obtain ⟨c, valid, rfl, holds⟩ := composeSession_ok ht ok
    refine ⟨?_, ?_, ?_⟩
    · rw [readPort_len, holds.len, valid.body_length, Nat.add_sub_cancel_left]
    · rw [readPort_type, holds.type, List.take_left' valid.type_length]
    · rw [readPort_crcCalc, holds.crc, valid.crc]

/-! ### The host procedures (R136 to R138) -/

theorem hostResult_ok {α : Type} (result : State → α) {u : State} (h : resolve u = 0) :
    hostResult result (.next (closed u)) = some (.ok (result (closed u))) := by
  rw [hostResult, hostOk, (readPort_ok_closed u).mpr h, if_pos rfl]

theorem hostResult_error {α : Type} (result : State → α) {u : State} {e : FrameError}
    (h : resolve u = e.code) :
    hostResult result (.next (closed u)) = some (.error e.code) := by
  have notOk : hostOk (closed u) ≠ true := by
    rw [hostOk, Ne, readPort_ok_closed, closed_fr_err, h]
    exact e.code_ne_zero
  rw [hostResult, if_neg notOk, hostErr, readPort_status, statusWord_err, closed_fr_err, h]

/-- Settles O47: the registers and the host's copy of the data are the fields of the document's chunk. -/
theorem parseSessionRefinesTheDocument : Obligations.ParseSessionRefinesTheDocument := by
  intro S s
  obtain ⟨u, h, hu⟩ := parseSession_answers S s
  have result := h.resolve_eq
  rw [hostChunkParse, hu]
  cases hc : docChunkParse S with
  | error e => exact hostResult_error _ (by rw [result, hc]; rfl)
  | ok c =>
    obtain ⟨valid, rfl⟩ := docChunkParse_eq_ok_iff.mp hc
    obtain ⟨⟨len, type, -⟩, crcRx⟩ := h.holdsChunk valid
    obtain ⟨-, -, data, -⟩ := valid.window_toBytes
    have chunk : hostChunk c.toBytes (closed u) = c := by
      simp only [hostChunk, readPort_len, readPort_type, readPort_crcRx, closed_fr_len, closed_fr_type,
        closed_fr_crc_rx, len, type, crcRx]
      rw [← window, data]
    rw [hostResult_ok _ (by rw [result, hc]; rfl), chunk]

/-- Settles O48: the host's own type and data are those of the document's chunk, one after the other. -/
theorem composeSessionRefinesTheDocument : Obligations.ComposeSessionRefinesTheDocument := by
  intro T D s
  obtain ⟨u, h, hu⟩ := composeSession_answers (T ++ D) s
  have result := h.resolve_eq
  rw [hostChunkNew, hu]
  cases hc : docCompose (T ++ D) with
  | error e => exact hostResult_error _ (by rw [result, hc]; rfl)
  | ok c =>
    obtain ⟨valid, body⟩ := docCompose_eq_ok_iff.mp hc
    rw [body] at h
    obtain ⟨len, -, crc⟩ := h.holdsChunk valid
    have bytes : c.toBytes = be32 c.length ++ T ++ D ++ be32 c.crc := by
      rw [c.toBytes_eq_fields, ← body, List.append_assoc (be32 _) T D]
    rw [hostResult_ok _ (by rw [result, hc]; rfl), readPort_len, readPort_crcCalc, closed_fr_len,
      closed_frCrcCalc, len, crc, ← bytes]

/-- The accessors of a complete type in FR_FLAGS, by its bytes (R44, R136). -/
theorem readPort_flags_accessors {t : State} {T : List Byte} (type : be32 t.fr_type = T) :
    (readPort t 0x5).getLsbD 1 = isUpper (T.getD 0 0) ∧
      (readPort t 0x5).getLsbD 2 = isUpper (T.getD 1 0) ∧
      (readPort t 0x5).getLsbD 3 = isUpper (T.getD 2 0) ∧
      (readPort t 0x5).getLsbD 4 = isLower (T.getD 3 0) ∧
      (readPort t 0x5).getLsbD 5 = (typeComplete t && lettersOk t && isUpper (T.getD 2 0)) := by
  obtain ⟨-, crit, pub, resv, safe, valid, -, -⟩ := flagsWord_low t
  subst type
  simp only [readPort_flags, crit, pub, resv, safe, valid, isValid, critical, publicFlag, reservedValid,
    safeToCopy, typeByte_eq_be32, and_self]

/-- Settles O49: where `parse_str` answers, the type is complete and all letters, so IS_VALID is its byte 2. -/
theorem typeSessionRefinesTheDocument : Obligations.TypeSessionRefinesTheDocument := by
  intro S s
  obtain ⟨u, h, hu⟩ := typeSession_answers S s
  have result := h.resolve_eq
  rw [hostParseStr, hu]
  refine ⟨fun T hT => ?_, fun e he => hostResult_error _ (by rw [result, he]; rfl)⟩
  rw [hT] at result
  obtain ⟨four, letters, rfl⟩ := docTypeParseStr_eq_ok_iff.mp hT
  have type := h.be32_type four
  obtain ⟨crit, pub, resv, safe, valid⟩ := readPort_flags_accessors (t := closed u) type
  have complete : typeComplete (closed u) = true := by
    rw [typeComplete_iff, closed_typeRcvd, typeRcvd_compose_or_type (.inr h.mode), h.count, four]
    rfl
  have lettersOk : lettersOk (closed u) = true := by
    rw [← letters, ← window_all four.le]
    exact h.lettersOk_eq
  refine ⟨readPort (closed u) 0x5, ?_, crit, pub, resv, safe, ?_⟩
  · rw [hostResult_ok _ result, readPort_type, closed_fr_type, type]
  · rw [valid, complete, lettersOk]
    rfl

end Sys2Proof.Machine
end

section
/-! PROOFS of the statements on what sessions guarantee together (42_framer.md rules R134, R135, R140 and R142
to R144), from the chunk that a session with ERR = 0 holds and from what the document answers on a changed
slice. -/

namespace Sys2Proof.Machine

/-! ### Round trips (R134, R135) -/

/-- Settles O40: the registers are the fields of the chunk that the slice is the bytes of. -/
theorem parseRoundTrip : Obligations.ParseRoundTrip := by
  intro S s t ht ok
  obtain ⟨c, valid, rfl, ⟨len, type, -⟩, crcRx⟩ := parseSession_ok ht ok
  obtain ⟨-, -, data, -⟩ := valid.window_toBytes
  rw [len, type, crcRx, ← window, data]
  exact ⟨rfl, valid.crc, valid.toBytes_eq_chunkBytes⟩

/-- Settles O41: the slice is the bytes of the chunk that the COMPOSE session holds. -/
theorem composeThenParse : Obligations.ComposeThenParse := by
  intro T D s s' t four ht ok
  obtain ⟨c, valid, body, ⟨len, type, crc⟩⟩ := composeSession_ok ht ok
  obtain ⟨rfl, rfl⟩ := List.append_inj body (four.trans valid.type_length.symm)
  obtain ⟨t', ht', ok', ⟨len', type', crc'⟩, crcRx'⟩ := valid.parseSession_toBytes s'
  rw [readPort_len, readPort_crcCalc, len, crc]
  refine ⟨t', ht', ok', len', ?_, crcRx'.trans crc'.symm, crc'⟩
  rw [← beVal_be32 t'.fr_type, type', ← type, beVal_be32]

/-! ### The reserved bit of the type (R140) -/

/-- A lower-case byte 2 is no upper-case byte, so IS_VALID reads 0. -/
theorem readPort_isValid_eq_false {t : State} {T : List Byte} (type : be32 t.fr_type = T)
    (lower : isLower (T.getD 2 0) = true) : (readPort t 0x5).getLsbD 5 = false := by
  obtain ⟨-, -, -, -, valid⟩ := readPort_flags_accessors type
  have notUpper : isUpper (T.getD 2 0) = false := by
    rw [isLower_iff] at lower
    rw [← Bool.not_eq_true, isUpper_iff]
    omega
  rw [valid, notUpper, Bool.and_false]

/-- Settles O42: every mode holds the type, and none tests the case of its bytes. -/
theorem isValidIsReportedNotEnforced : Obligations.IsValidIsReportedNotEnforced := by
  intro T D s four letters lower small
  have valid := docChunkNew_valid four letters small
  refine ⟨?_, ?_, ?_⟩
  · obtain ⟨u, h, hu⟩ := typeSession_answers T s
    refine ⟨closed u, hu, ?_, readPort_isValid_eq_false (h.be32_type four) lower⟩
    rw [closed_fr_err, h.resolve_eq, docTypeParseStr_eq_ok_iff.mpr ⟨four, letters, rfl⟩]
    rfl
  · obtain ⟨t, ht, ok, holds⟩ := valid.composeSession_body s
    exact ⟨t, ht, ok, readPort_isValid_eq_false holds.type lower⟩
  · obtain ⟨t, ht, ok, holds, -⟩ := valid.parseSession_toBytes s
    exact ⟨t, ht, ok, readPort_isValid_eq_false holds.type lower⟩

/-! ### Changed slices (R142, R143) -/

/-- A PARSE session records the code of what the document answers on its slice. -/
theorem parseSession_fr_err (S : List Byte) (s : State) :
    ∃ t, execAll (parseSession S) s = .next t ∧ t.fr_err = docErrCode (docChunkParse S) := by
  obtain ⟨u, h, hu⟩ := parseSession_answers S s
  exact ⟨closed u, hu, h.resolve_eq⟩

theorem Chunk.Valid.toBytes_length {c : Chunk} (h : c.Valid) :
    c.toBytes.length = 12 + c.length.toNat := by
  simp only [Chunk.toBytes, List.length_append, be32_length, h.type_length, h.data_length]
  omega

theorem xor_bit_ne (b : Byte) {j : Nat} (hj : j < 8) : b ^^^ (1#8 <<< j) ≠ b := by
  intro same
  have bit := congrArg (BitVec.getLsbD · j) same
  simp [hj] at bit

theorem all_set {l : List Byte} {p : Byte → Bool} {i : Nat} (a : Byte) (hi : i < l.length)
    (h : l.all p = true) : (l.set i a).all p = p a := by
  rw [List.all_eq_true] at h
  have kept : ((l.set i a).all p = true) ↔ p a = true := by
    rw [List.all_eq_true]
    refine ⟨fun all => all a (List.mem_set hi a), fun pa x hx => ?_⟩
    rcases List.mem_or_eq_of_mem_set hx with old | rfl
    · exact h x old
    · exact pa
  exact Bool.eq_iff_iff.mpr kept

/-- A changed length byte asks for another total. -/
theorem docChunkParse_set_length {c : Chunk} (valid : c.Valid) {k : Nat} {a b : Byte} (hk : k < 4)
    (hb : c.toBytes[k]? = some b) (changed : a ≠ b) :
    docChunkParse (c.toBytes.set k a) = .error .lengthMismatch := by
  have total := valid.toBytes_length
  have field : window (c.toBytes.set k a) 0 4 = (be32 c.length).set k a := by
    obtain ⟨len, -⟩ := valid.window_toBytes
    rw [← len, window, window, List.drop_zero, List.drop_zero, List.take_set]
  have byte : (be32 c.length)[k]? = some b := by
    obtain ⟨len, -⟩ := valid.window_toBytes
    rw [← len, window, List.drop_zero, List.getElem?_take_of_lt hk, hb]
  refine docChunkParse_mismatch (by rw [List.length_set]; omega) fun same => changed ?_
  rw [List.length_set, total, field] at same
  have len : be32 c.length = (be32 c.length).set k a := by
    rw [← be32_beVal_of_length (S := (be32 c.length).set k a) (by simp)]
    exact congrArg be32 (BitVec.eq_of_toNat_eq (by omega))
  rw [len, List.getElem?_set_self (by simpa using hk)] at byte
  exact Option.some.inj byte

/-- The bytes under the CRC stand behind the four length bytes. -/
theorem Chunk.getElem?_toBytes_body (c : Chunk) {i : Nat} (hi : i < (c.chunkType ++ c.data).length) :
    c.toBytes[4 + i]? = (c.chunkType ++ c.data)[i]? := by
  rw [c.toBytes_eq_fields, List.append_assoc (be32 _), List.getElem?_append_right (by simp),
    be32_length, Nat.add_sub_cancel_left, List.getElem?_append_left hi]

theorem Chunk.set_toBytes_body (c : Chunk) {i : Nat} (a : Byte)
    (hi : i < (c.chunkType ++ c.data).length) :
    c.toBytes.set (4 + i) a = be32 c.length ++ (c.chunkType ++ c.data).set i a ++ be32 c.crc := by
  rw [c.toBytes_eq_fields, List.append_assoc (be32 _), List.set_append_right _ _ (by simp),
    be32_length, Nat.add_sub_cancel_left, List.set_append_left _ _ hi, List.append_assoc]

/-- A changed bit of the type or the data leaves the fields where they are and the CRC field wrong. -/
theorem docChunkParse_flip_body {c : Chunk} (valid : c.Valid) {i j : Nat} {b : Byte}
    (hb : (c.chunkType ++ c.data)[i]? = some b) (hj : j < 8) :
    docErrCode (docChunkParse (c.toBytes.set (4 + i) (b ^^^ (1#8 <<< j)))) =
      if i < 4 ∧ isLetter (b ^^^ (1#8 <<< j)) = false then 3 else 4 := by
  have differ := crcDetectsEverySingleBitError _ i b j hb hj
  obtain ⟨hi, -⟩ := List.getElem?_eq_some_iff.mp hb
  have type := valid.type_length
  generalize b ^^^ (1#8 <<< j) = a at differ ⊢
  have letters : (((c.chunkType ++ c.data).set i a).take 4).all isLetter =
      !decide (i < 4 ∧ isLetter a = false) := by
    rw [List.take_set, List.take_left' type]
    rcases Nat.lt_or_ge i 4 with inType | inData
    · rw [all_set a (by omega) valid.letters]
      simp [inType]
    · rw [List.set_eq_of_length_le (by omega), valid.letters]
      simp [inData.not_gt]
  rw [c.set_toBytes_body a hi, docChunkParse_fields (by rw [List.length_set, valid.body_length]), letters,
    valid.crc, if_pos differ]
  by_cases noLetter : i < 4 ∧ isLetter a = false <;> simp [noLetter, docErrCode, FrameError.code]

/-- Settles O44: in front of the CRC field a byte belongs to the length field or to the bytes under the CRC. -/
theorem singleBitFlipIsCaught : Obligations.SingleBitFlipIsCaught := by
  intro S s s' t k b j ht ok inFront hb hj
  obtain ⟨c, valid, rfl, -, -⟩ := parseSession_ok ht ok
  obtain ⟨t', ht', code⟩ := parseSession_fr_err (c.toBytes.set k (b ^^^ (1#8 <<< j))) s'
  refine ⟨t', ht', ?_⟩
  rw [code]
  rcases Nat.lt_or_ge k 4 with inLength | inBody
  · refine ⟨fun _ => .inl ?_, by omega, by omega⟩
    rw [docChunkParse_set_length valid inLength hb (xor_bit_ne b hj)]
    rfl
  · obtain ⟨i, rfl⟩ := Nat.exists_eq_add_of_le inBody
    have hi : i < (c.chunkType ++ c.data).length := by
      rw [valid.toBytes_length] at inFront
      rw [valid.body_length]
      omega
    rw [c.getElem?_toBytes_body hi] at hb
    rw [docChunkParse_flip_body valid hb hj]
    refine ⟨by omega, fun _ h8 => ?_, fun h8 => ?_⟩
    · cases isLetter (b ^^^ (1#8 <<< j)) <;> simp [show i < 4 by omega]
    · simp [show ¬ i < 4 by omega]

/-- Settles O45: with at least 12 bytes the four length bytes are those of the slice that parses, and ask for
its total. -/
theorem wrongTotalLengthIsCaught : Obligations.WrongTotalLengthIsCaught := by
  intro S S' s s' t ht ok other related
  obtain ⟨c, valid, rfl, -, -⟩ := parseSession_ok ht ok
  obtain ⟨t', ht', code⟩ := parseSession_fr_err S' s'
  refine ⟨t', ht', code.trans ?_⟩
  split_ifs with short
  · rw [docChunkParse_short short]
    rfl
  · have lengthField : S'.take 4 = c.toBytes.take 4 := by
      rcases related with ⟨n, rfl⟩ | same
      · rw [List.take_take, min_eq_left]
        rw [List.length_take] at short
        omega
      · exact same
    have expected : beVal (window S' 0 4) = c.length := by
      obtain ⟨len, -⟩ := valid.window_toBytes
      rw [← beVal_be32 c.length, ← len]
      exact congrArg beVal lengthField
    rw [docChunkParse_mismatch (by omega) (by rwa [expected, ← valid.toBytes_length])]
    rfl

/-! ### FR.END leaves the result registers (R144) -/

/-- The bytes of a session of any kind leave it open. -/
theorem session_opens {start : Instr} (h : start = .frParse ∨ start = .frCompose ∨ start = .frType)
    (S : List Byte) (s : State) :
    ∃ u, execAll (start :: S.map .frByte) s = .next u ∧ u.fr_busy = true := by
  rcases h with rfl | rfl | rfl
  · obtain ⟨u, hu, h⟩ := parse_absorbs S s
    exact ⟨u, hu, h.busy⟩
  · obtain ⟨u, hu, h⟩ := compose_absorbs S s
    exact ⟨u, hu, h.busy⟩
  · obtain ⟨u, hu, h⟩ := type_absorbs S s
    exact ⟨u, hu, h.busy⟩

/-- FR.END closes the session that the bytes left open. -/
theorem session_closes {start : Instr} {S : List Byte} {s u : State}
    (hu : execAll (start :: S.map .frByte) s = .next u) (busy : u.fr_busy = true) :
    execAll (session start S) s = .next (closed u) := by
  rw [session, ← List.cons_append, execAll_snoc hu, exec_frEnd_open busy, closed]

/-- Settles O46: FR.END shows in STATUS alone. -/
theorem failedSessionKeepsItsRegisters : Obligations.FailedSessionKeepsItsRegisters := by
  intro start S s h
  obtain ⟨u, hu, busy⟩ := session_opens h S s
  refine ⟨u, closed u, hu, session_closes hu busy, fun idx => readPort_closed u, fun failed => ?_⟩
  rwa [← Bool.not_eq_true, readPort_ok_closed]

end Sys2Proof.Machine
end

section
/-! PROOFS of the statements on outcomes and errors (60_exceptions.md rules R173 and R177): which outcome code a
word leaves in `last`, and that a session's result does not depend on what came before its start. -/

namespace Sys2Proof.Machine

/-! ### The outcome code in `last` (R173) -/

/-- A command is rejected exactly when it needs an open session and there is none: of the effects of a
command, only the rejection leaves 2 in `last`. -/
theorem exec_last_eq_two_iff {i : Instr} {s t : State} (h : exec i s = .next t) :
    t.last = 2 ↔ s.fr_busy = false ∧ (i = .frEnd ∨ ∃ b, i = .frByte b) := by
  constructor
  · intro two
    cases exec_wordEffect h with
    | rejected _ hi closed => exact ⟨closed, hi⟩
    | _ => nomatch two
  · rintro ⟨closed, rfl | ⟨b, rfl⟩⟩
    · cases h.symm.trans (exec_frEnd_closed closed)
      rfl
    · cases h.symm.trans (exec_frByte_closed closed)
      rfl

/-- Settles O7: an illegal word leaves 1, and a legal one 0 or, where it is rejected, 2. -/
theorem outcomeCodeOfEveryWord : Obligations.OutcomeCodeOfEveryWord := by
  intro w s t h
  cases hd : decode w with
  | error e =>
    cases h.symm.trans (stepWord_of_decode_error hd s)
    simp
  | ok i =>
    rw [stepWord_of_decode_ok hd] at h
    simp only [Except.ok.injEq, ← exec_last_eq_two_iff h]
    rcases (exec_wordEffect h).accepted_or_rejected with accepted | rfl
    · simp [accepted]
    · simp

/-! ### A session's result ignores the past (R121, R177) -/

/-- The same commands keep two framers equal. -/
theorem execAll_sameFramer_congr {is : List Instr} {s s' t t' : State} (h : execAll is s = .next t)
    (h' : execAll is s' = .next t') (same : s.sameFramer s') : t.sameFramer t' := by
  induction is generalizing s s' with
  | nil =>
    cases h
    cases h'
    exact same
  | cons i is ih =>
    obtain ⟨u, hu, -⟩ := exec_next i s
    obtain ⟨u', hu', -⟩ := exec_next i s'
    rw [execAll_cons hu] at h
    rw [execAll_cons hu'] at h'
    exact ih h h' (exec_sameFramer_congr hu hu' same)

/-- The session start makes any two framers equal, and the commands after it keep them so. -/
theorem session_sameFramer {start : Instr} {m : Mode} (starts : Starts start m) {S : List Byte}
    {s s' t t' : State} (h : execAll (session start S) s = .next t)
    (h' : execAll (session start S) s' = .next t') : t.sameFramer t' := by
  rw [session, execAll_cons (exec_sessionStart starts _)] at h h'
  exact execAll_sameFramer_congr h h' (sameFramer_of_restart m true s s')

/-- The bytes of a session of any kind leave the session of the start's mode open, and everything outside the
framer but `last` as it was. -/
theorem session_openOn {start : Instr} {m : Mode} (starts : Starts start m) (S : List Byte) (s : State) :
    ∃ u, execAll (start :: S.map .frByte) s = .next u ∧ OpenOn m S s u := by
  rcases starts with ⟨rfl, rfl⟩ | ⟨rfl, rfl⟩ | ⟨rfl, rfl⟩
  · obtain ⟨u, hu, h⟩ := parse_absorbs S s
    exact ⟨u, hu, h.toOpenOn⟩
  · obtain ⟨u, hu, h⟩ := compose_absorbs S s
    exact ⟨u, hu, h.toOpenOn⟩
  · obtain ⟨u, hu, h⟩ := type_absorbs S s
    exact ⟨u, hu, h.toOpenOn⟩

/-- Every session start opens one of the modes. -/
theorem exists_starts {start : Instr}
    (h : start = .frParse ∨ start = .frCompose ∨ start = .frType) : ∃ m, Starts start m := by
  rcases h with rfl | rfl | rfl
  · exact ⟨.parse, .inl ⟨rfl, rfl⟩⟩
  · exact ⟨.compose, .inr (.inl ⟨rfl, rfl⟩)⟩
  · exact ⟨.type, .inr (.inr ⟨rfl, rfl⟩)⟩

/-- Settles O39: FR.END writes neither `crc_state` nor a sticky bit, and the framer forgets its past at the
session start. -/
theorem sessionResultIgnoresThePast : Obligations.SessionResultIgnoresThePast := by
  intro start S s s' h
  obtain ⟨m, starts⟩ := exists_starts h
  obtain ⟨u, hu, kept⟩ := session_openOn starts S s
  obtain ⟨-, -, busy, -⟩ := kept.isOpen
  have ht := session_closes hu busy
  obtain ⟨t', ht'⟩ := execAll_next (session start S) s'
  exact ⟨closed u, t', ht, ht', session_sameFramer starts ht ht', kept.crc_state, kept.ill, kept.rej⟩

end Sys2Proof.Machine
end

section
/-! PROOFS of the statements on reset and the clock cycle (70_reset_and_hazards.md rules R190 and R194, 20_memory.md
rule R50): the ports in a cycle with `rst` high, what the registers read in the reset state, and the three kinds
of rising edge. -/

namespace Sys2Proof.Machine

/-! ### The reset edge (R190) and the registers after it (R42, R45) -/

theorem cmdReady_of_rst {s : State} (rst : s.pins.rst = true) : s.cmdReady = false := by
  simp [State.cmdReady, rst]

theorem accepts_of_rst {s : State} (rst : s.pins.rst = true) : s.accepts = false := by
  simp [State.accepts, cmdReady_of_rst rst]

/-- The read port shows the elements of the block, not the host's coming cycles. -/
theorem readPort_withCycles (s : State) (cs : List PortIn) (idx : ReadIndex) :
    readPort { s with cycles := cs } idx = readPort s idx := rfl

/-- Only CRC_STATE and the flag LETTERS_OK, which holds of no type byte at all, are not 0 after a reset. -/
theorem readPort_reset : ∀ idx : ReadIndex, readPort State.reset idx =
    if idx = 1 then 0xFFFFFFFF else if idx = 5 then 1 else 0 := by decide

/-- Settles O2: reset wins over an offered word, and the reset state is read at each of the 16 indices. -/
theorem resetEdgeSetsEveryElement : Obligations.ResetEdgeSetsEveryElement := by
  refine ⟨fun s rst => ⟨cmdReady_of_rst rst, accepts_of_rst rst, step_of_rst rst⟩, fun cs idx => ?_⟩
  rw [readPort_withCycles, readPort_reset]

/-! ### One clock cycle (R50, R194) -/

/-- Settles O3: with `rst` low the edge executes the offered word, which always has a next state, or keeps
every element. -/
theorem oneClockCycle : Obligations.OneClockCycle := by
  refine fun s => ⟨rfl, rfl, fun valid rst => ?_, fun valid rst => step_of_no_word rst valid⟩
  obtain ⟨t, ht, -⟩ := stepWord_next s.pins.cmd_data s.popPins
  exact ⟨t, (step_of_word_offered rst valid).trans ht, ht⟩

end Sys2Proof.Machine
end

section
/-! PROOFS of the statements on the invariant of the states after reset (10_state.md section 1, 42_framer.md
section 1, 60_exceptions.md section 1): it speaks of the framer and of `last`, so a step keeps it by one of
four effects on the framer: none at all, a restart, one absorbed byte, or the result of FR.END. -/

namespace Sys2Proof.Machine

/-! ### What the invariant reads -/

/-- A session is never open in mode IDLE (R120). -/
theorem State.Inv.mode_ne_idle {s : State} (h : s.Inv) (busy : s.fr_busy = true) :
    s.fr_mode ≠ .idle := by
  rcases h.control with idle | ⟨m, notIdle, rfl, -⟩ | ⟨m, e, done⟩
  · exact absurd busy (by simp [idle.not_busy])
  · exact notIdle
  · exact absurd busy (by simp [done.not_busy])

/-- Mode IDLE is the control state IDLE (R120). -/
theorem State.InControlState.isIdle_of_mode {s : State} (h : s.InControlState)
    (mode : s.fr_mode = .idle) : s.isIdle := by
  rcases h with idle | ⟨m, notIdle, rfl, -⟩ | ⟨m, e, notIdle, rfl, -⟩
  · exact idle
  · exact absurd mode notIdle
  · exact absurd mode notIdle

/-- Besides the framer elements, the invariant reads `last` alone. -/
theorem State.Inv.of_sameFramer {s t : State} (h : s.Inv) (same : s.sameFramer t) (last : t.last ≠ 3) :
    t.Inv := by
  rw [same.eq_withRestOf]
  obtain ⟨control, idle, noErr, errMode, -, unreceived, type, compose, len, parse⟩ := h
  exact ⟨control, idle, noErr, errMode, last, unreceived, type, compose, len, parse⟩

/-! ### A restart: reset, the session starts and FR.ABORT (R121, R133, R190) -/

theorem errNone_mem_errorsOf (m : Mode) : errNone ∈ errorsOf m := by
  cases m <;> decide

/-- A restart leaves every data element at its reset value. -/
theorem restarted_inv {m : Mode} {busy : Bool} {s : State}
    (control : (restarted m busy s).InControlState) : (restarted m busy s).Inv where
  control := control
  idle_reset := fun mode => ⟨control.isIdle_of_mode mode, rfl, rfl, rfl, rfl, rfl, rfl⟩
  err_none_until_end := fun _ => rfl
  err_of_mode := errNone_mem_errorsOf m
  last_code := by simp [restarted]
  type_unreceived := fun j _ => typeByte_zero j
  type_untouched := fun _ => ⟨rfl, rfl, rfl⟩
  compose_untouched := fun _ => rfl
  compose_len := fun _ _ => rfl
  parse_untouched := fun _ => ⟨fun _ => rfl, fun _ => rfl⟩

/-- Settles O36: reset leaves the framer as FR.ABORT does, and ACCEPTED in `last`. -/
theorem resetMeetsTheInvariant : Obligations.ResetMeetsTheInvariant := by
  intro cs
  have aborted : (restarted .idle false { State.reset with cycles := cs }).Inv :=
    restarted_inv (.inl ⟨rfl, rfl, rfl⟩)
  exact aborted.of_sameFramer (.refl _) (by simp [State.reset])

/-! ### FR.END (R129, R171) -/

/-- FR.END records only codes of the session's mode. -/
theorem resolve_mem_errorsOf (s : State) : resolve s ∈ errorsOf s.fr_mode := by
  cases mode : s.fr_mode with
  | idle =>
    rw [resolve_idle mode]
    exact errNone_mem_errorsOf .idle
  | parse =>
    rw [resolve_parse mode, resolveP]
    split_ifs <;> decide
  | compose =>
    rw [resolve_compose mode, resolveC]
    split_ifs <;> decide
  | type =>
    rw [resolve_type mode, resolveT]
    split_ifs <;> decide

/-- The result of an open session takes the place of NONE; the data elements stay. -/
theorem closed_inv {s : State} (h : s.Inv) (busy : s.fr_busy = true) : (closed s).Inv where
  control := exec_inControlState (exec_frEnd_open busy) h.control
  idle_reset := fun mode => absurd mode (h.mode_ne_idle busy)
  err_none_until_end := fun notDone => nomatch notDone
  err_of_mode := resolve_mem_errorsOf s
  last_code := by simp [closed]
  type_unreceived := h.type_unreceived
  type_untouched := h.type_untouched
  compose_untouched := h.compose_untouched
  compose_len := h.compose_len
  parse_untouched := h.parse_untouched

/-! ### One absorbed byte (R125 to R128) -/

/-- The state after FR.BYTE of an open session `s` (`exec_frByte_open`). -/
def absorbed (b : Byte) (s : State) : State :=
  { absorb s.fr_count.toNat b s with fr_count := incCount s.fr_count, last := 0 }

@[simp] theorem absorbed_fr_count (b : Byte) (s : State) :
    (absorbed b s).fr_count = incCount s.fr_count := rfl
@[simp] theorem absorbed_fr_len (b : Byte) (s : State) :
    (absorbed b s).fr_len = (absorb s.fr_count.toNat b s).fr_len := rfl
@[simp] theorem absorbed_fr_type (b : Byte) (s : State) :
    (absorbed b s).fr_type = (absorb s.fr_count.toNat b s).fr_type := rfl
@[simp] theorem absorbed_fr_crc (b : Byte) (s : State) :
    (absorbed b s).fr_crc = (absorb s.fr_count.toNat b s).fr_crc := rfl
@[simp] theorem absorbed_fr_crc_rx (b : Byte) (s : State) :
    (absorbed b s).fr_crc_rx = (absorb s.fr_count.toNat b s).fr_crc_rx := rfl

@[simp] theorem absorbed_fr_mode (b : Byte) (s : State) : (absorbed b s).fr_mode = s.fr_mode := by
  rw [absorbed, absorb_frame]

@[simp] theorem absorbed_fr_done (b : Byte) (s : State) : (absorbed b s).fr_done = s.fr_done := by
  rw [absorbed, absorb_frame]

@[simp] theorem absorbed_fr_err (b : Byte) (s : State) : (absorbed b s).fr_err = s.fr_err := by
  rw [absorbed, absorb_frame]

/-- A byte is the next type byte, stored at its own place, or it leaves the type word (R126 to R128). -/
theorem absorbed_type_cases (b : Byte) (s : State) :
    ((absorbed b s).fr_type = setTypeByte s.fr_type (typeRcvd s) b ∧ typeRcvd s < 4 ∧
      typeRcvd (absorbed b s) = typeRcvd s + 1) ∨
    ((absorbed b s).fr_type = s.fr_type ∧ typeRcvd s ≤ typeRcvd (absorbed b s)) := by
  cases mode : s.fr_mode with
  | idle => simp [typeRcvd, mode, absorb_idle]
  | parse =>
    rw [typeRcvd_parse mode, typeRcvd_parse ((absorbed_fr_mode b s).trans mode), absorbed_fr_count,
      incCount_toNat, absorbed_fr_type, absorb_parse mode, absorbP]
    split_ifs with length type data crc
    · exact .inr ⟨rfl, by omega⟩
    · rw [Nat.min_eq_right (by omega)]
      exact .inl ⟨rfl, by omega, by omega⟩
    · exact .inr ⟨rfl, by omega⟩
    · exact .inr ⟨rfl, by omega⟩
    · exact .inr ⟨rfl, by omega⟩
  | compose =>
    rw [typeRcvd_compose_or_type (.inl mode),
      typeRcvd_compose_or_type (.inl ((absorbed_fr_mode b s).trans mode)), absorbed_fr_count,
      incCount_toNat, absorbed_fr_type, absorb_compose mode, absorbC]
    split_ifs with type
    · rw [Nat.min_eq_right (by omega)]
      exact .inl ⟨rfl, by omega, by omega⟩
    · exact .inr ⟨rfl, by omega⟩
  | type =>
    rw [typeRcvd_compose_or_type (.inr mode),
      typeRcvd_compose_or_type (.inr ((absorbed_fr_mode b s).trans mode)), absorbed_fr_count,
      incCount_toNat, absorbed_fr_type, absorb_type mode, absorbT]
    split_ifs with type
    · rw [Nat.min_eq_right (by omega)]
      exact .inl ⟨rfl, by omega, by omega⟩
    · exact .inr ⟨rfl, by omega⟩

/-- The type bytes past the received ones stay 0x00 (R28). -/
theorem State.Inv.absorbed_type_unreceived {s : State} (h : s.Inv) (b : Byte) (j : Nat)
    (hj : typeRcvd (absorbed b s) ≤ j) : typeByte (absorbed b s).fr_type j = 0 := by
  rcases absorbed_type_cases b s with ⟨stored, place, received⟩ | ⟨same, received⟩
  · rcases Nat.lt_or_ge j 4 with inWord | past
    · rw [stored, typeByte_setTypeByte _ _ _ _ place inWord, if_neg (by omega)]
      exact h.type_unreceived j (by omega)
    · exact typeByte_of_ge _ past
  · rw [same]
    exact h.type_unreceived j (received.trans hj)

/-- A TYPE session stores type bytes only (R126). -/
theorem State.Inv.absorbed_type_untouched {s : State} (h : s.Inv) (b : Byte) (mode : s.fr_mode = .type) :
    (absorbed b s).fr_len = 0 ∧ (absorbed b s).fr_crc = crcInitial ∧ (absorbed b s).fr_crc_rx = 0 := by
  rw [absorbed_fr_len, absorbed_fr_crc, absorbed_fr_crc_rx, absorb_type mode, absorbT]
  split_ifs <;> exact h.type_untouched mode

/-- A COMPOSE session receives no CRC field (R128). -/
theorem State.Inv.absorbed_compose_untouched {s : State} (h : s.Inv) (b : Byte)
    (mode : s.fr_mode = .compose) : (absorbed b s).fr_crc_rx = 0 := by
  rw [absorbed_fr_crc_rx, absorb_compose mode, absorbC]
  split_ifs <;> exact h.compose_untouched mode

/-- A COMPOSE session counts each byte past the four type bytes in `fr_len` (R128). -/
theorem State.Inv.absorbed_compose_len {s : State} (h : s.Inv) (b : Byte) (mode : s.fr_mode = .compose)
    (unsaturated : (absorbed b s).fr_count.toNat < 2 ^ 64 - 1) :
    (absorbed b s).fr_len.toNat = ((absorbed b s).fr_count.toNat - 4) % 2 ^ 32 := by
  rw [absorbed_fr_count, incCount_toNat] at unsaturated ⊢
  have before := h.compose_len mode (by omega)
  rw [absorbed_fr_len, absorb_compose mode, absorbC]
  split_ifs with type
  · dsimp only
    omega
  · rw [BitVec.toNat_add, show (1 : Word).toNat = 1 from rfl]
    omega

/-- A PARSE session touches its CRC register with the type bytes and `fr_crc_rx` with the CRC field (R127).
`fr_len` changes only while the count is below 4, where both are untouched whatever it holds. -/
theorem State.Inv.absorbed_parse_untouched {s : State} (h : s.Inv) (b : Byte) (mode : s.fr_mode = .parse) :
    ((absorbed b s).fr_count.toNat ≤ 4 → (absorbed b s).fr_crc = crcInitial) ∧
    ((absorbed b s).fr_count.toNat ≤ 8 + (absorbed b s).fr_len.toNat →
      (absorbed b s).fr_crc_rx = 0) := by
  obtain ⟨crcBefore, rxBefore⟩ := h.parse_untouched mode
  have small := s.fr_len.isLt
  rw [absorbed_fr_count, incCount_toNat, absorbed_fr_len, absorbed_fr_crc, absorbed_fr_crc_rx,
    absorb_parse mode, absorbP]
  split_ifs with length type data crc
  · exact ⟨fun _ => crcBefore (by omega), fun _ => rxBefore (by omega)⟩
  · exact ⟨fun early => absurd early (by omega), fun _ => rxBefore (by omega)⟩
  · exact ⟨fun early => absurd early (by omega), fun _ => rxBefore (by omega)⟩
  · exact ⟨fun early => absurd early (by omega), fun early => absurd early (by dsimp only; omega)⟩
  · exact ⟨fun early => absurd early (by omega), fun early => absurd early (by omega)⟩

theorem absorbed_inv {s : State} (h : s.Inv) (busy : s.fr_busy = true) (b : Byte) :
    (absorbed b s).Inv where
  control := exec_inControlState (exec_frByte_open busy) h.control
  idle_reset := fun mode => absurd ((absorbed_fr_mode b s).symm.trans mode) (h.mode_ne_idle busy)
  err_none_until_end := by simpa using h.err_none_until_end
  err_of_mode := by simpa using h.err_of_mode
  last_code := by simp [absorbed]
  type_unreceived := h.absorbed_type_unreceived b
  type_untouched := by simpa using h.absorbed_type_untouched b
  compose_untouched := by simpa using h.absorbed_compose_untouched b
  compose_len := by simpa only [absorbed_fr_mode] using h.absorbed_compose_len b
  parse_untouched := by simpa only [absorbed_fr_mode] using h.absorbed_parse_untouched b

/-! ### Every command, every word, every step -/

/-- No command leaves 3 in `last` (R33, R173). -/
theorem exec_last_ne_three {i : Instr} {s t : State} (h : exec i s = .next t) : t.last ≠ 3 := by
  rcases (exec_wordEffect h).accepted_or_rejected with accepted | rfl
  · simp [accepted]
  · simp

theorem exec_inv {i : Instr} {s t : State} (ht : exec i s = .next t) (h : s.Inv) : t.Inv := by
  have control := exec_inControlState ht h.control
  cases framer : i.isFramerCommand with
  | false => exact h.of_sameFramer (exec_sameFramer ht framer) (exec_last_ne_three ht)
  | true =>
    cases i with
    | frParse => cases ht; exact restarted_inv control
    | frCompose => cases ht; exact restarted_inv control
    | frType => cases ht; exact restarted_inv control
    | frAbort => cases ht; exact restarted_inv control
    | frByte b =>
      cases busy : s.fr_busy with
      | true =>
        cases ht.symm.trans (exec_frByte_open busy)
        exact absorbed_inv h busy b
      | false =>
        cases ht.symm.trans (exec_frByte_closed busy)
        exact h.of_sameFramer (.refl s) (exec_last_ne_three ht)
    | frEnd =>
      cases busy : s.fr_busy with
      | true =>
        cases ht.symm.trans (exec_frEnd_open busy)
        exact closed_inv h busy
      | false =>
        cases ht.symm.trans (exec_frEnd_closed busy)
        exact h.of_sameFramer (.refl s) (exec_last_ne_three ht)
    | _ => nomatch framer

theorem stepWord_inv {w : Word} {s t : State} (ht : stepWord w s = .next t) (h : s.Inv) : t.Inv := by
  cases hd : decode w with
  | error e =>
    cases ht.symm.trans (stepWord_of_decode_error hd s)
    exact h.of_sameFramer (.refl s) (by simp)
  | ok i => exact exec_inv ((stepWord_of_decode_ok hd s).symm.trans ht) h

/-- Settles O37: reset restarts the framer, an offered word acts as `stepWord_inv` says, and an idle cycle
keeps every element. -/
theorem everyStepKeepsTheInvariant : Obligations.EveryStepKeepsTheInvariant := by
  intro s t h ht
  have popped : s.popPins.Inv := h.of_sameFramer (.refl s) h.last_code
  cases rst : s.pins.rst with
  | true =>
    cases ht.symm.trans (step_of_rst rst)
    exact resetMeetsTheInvariant s.popPins.cycles
  | false =>
    cases valid : s.pins.cmd_valid with
    | true => exact stepWord_inv ((step_of_word_offered rst valid).symm.trans ht) popped
    | false =>
      cases ht.symm.trans (step_of_no_word rst valid)
      exact popped

end Sys2Proof.Machine
end
